-- ==== Sys2Proof/Word.lean ====
section
/-! DEFINITION. The units the engine works on: bytes, words, blocks, digests (00_scope.md R8, R10; 10_state.md R20). -/

namespace Sys2Proof

/-- A byte, `u8` (R10). -/
abbrev Byte := BitVec 8

/-- A word, `u32` (R8, R10). Its `+` is addition modulo 2^32 (R11). -/
abbrev Word := BitVec 32

/-- The ByteCounter's width, `u64` (R8, R22). -/
abbrev Counter := BitVec 64

/-- The block size in bytes (R8). -/
abbrev blockBytes : Nat := 64

/-- A block: 64 bytes, index 0 first (R8, R12). The CarryBuffer's store is one too (R24). -/
abbrev Block := Vector Byte 64

/-- A digest: 20 bytes, index 0 first (R8, R15). -/
abbrev Digest := Vector Byte 20

/-- The chaining variables h0..h4 (R15, R20). -/
structure DigestState where
  h0 : Word
  h1 : Word
  h2 : Word
  h3 : Word
  h4 : Word
  deriving DecidableEq, Repr

end Sys2Proof
end

