-- ==== Sys2Proof/Syntax.lean ====
section
/-! DEFINITION. Commands, command frames and what else the host can send (30_encoding.md R70 to R77, R84;
70_reset_and_hazards.md R230). -/

namespace Sys2Proof

/-- The operation codes of R72. -/
inductive Opcode where
  | init
  | update
  | final
  | compute
  | rddigest
  | dispose
  deriving DecidableEq, Repr

/-- `Cmd(op, b)`: a decoded command word (R84). -/
structure Cmd where
  op : Opcode
  b : Bool
  deriving DecidableEq, Repr

/-- The commands, one constructor for each row of the opcode table, with the operands of R73. A buffer is `none` where
the field B is 0 (R74) and holds DATA where it is 1: SIZE is its length (R73, R76). OFF and CNT are the operand units
themselves; the engine reads them as two's-complement integers (R75). -/
inductive Instr where
  | init
  | update (buf : Option (List Byte)) (off cnt : Word)
  | final
  | compute (buf : Option (List Byte))
  | rddigest
  | dispose
  deriving DecidableEq, Repr

/-- A frame as the host submits it: the command word and operand units, in order, and the DATA bytes (R70, R73). How the
units move over a bus is left to the platform (R73, log entry 6). -/
structure Frame where
  units : List Word
  data : List Byte
  deriving DecidableEq, Repr

/-- Why a frame spells no command: the four cases of R78. -/
inductive Illegal where
  /-- R78 (b): a bit of RSV is set. -/
  | reservedBits
  /-- R78 (a): OP is none of 0x01 to 0x06. -/
  | reservedOpcode
  /-- R78 (c): B = 1 on a command that has no buffer. -/
  | bufferFlag
  /-- R78 (d): the frame does not match its layout in R73. -/
  | layout
  deriving DecidableEq, Repr

/-- What the host can do to the engine: submit a frame (R70) or use the reset input (R230). -/
inductive HostInput where
  | frame (f : Frame)
  | reset
  deriving DecidableEq, Repr

end Sys2Proof
end

