-- ==== Sys2Proof/WellFormed.lean ====
section
/-! DEFINITION. Which commands have a frame: SIZE is an unsigned 32-bit operand (30_encoding.md R76). -/

namespace Sys2Proof

/-- A buffer fits a frame when its length fits the SIZE operand (R76); an absent buffer has none (R74). -/
def bufferWf : Option (List Byte) → Bool
  | none => true
  | some buf => decide (buf.length < 2 ^ 32)

/-- A command that some frame of R73 spells. OFF and CNT have the operand's width by their type (R75). -/
def Instr.wf : Instr → Bool
  | .init => true
  | .update buf _ _ => bufferWf buf
  | .final => true
  | .compute buf => bufferWf buf
  | .rddigest => true
  | .dispose => true

end Sys2Proof
end

