-- ==== Sys2Proof/Decode.lean ====
section
/-! DEFINITION. The decoder, total on every frame and refusing by name, and the encoder (30_encoding.md R71 to R79, R84). -/

namespace Sys2Proof

/-- The value of the field OP, `word[7:0]` (R71). -/
def fieldOp (w : Word) : BitVec 8 := w.extractLsb' 0 8

/-- The field B, `word[8]` (R71). -/
def fieldB (w : Word) : Bool := w.getLsbD 8

/-- The field RSV, `word[31:9]` (R71). -/
def fieldRsv (w : Word) : BitVec 23 := w.extractLsb' 9 23

/-- The opcode map (R72). -/
def Opcode.ofCode (c : BitVec 8) : Option Opcode :=
  if c = 0x01 then some .init
  else if c = 0x02 then some .update
  else if c = 0x03 then some .final
  else if c = 0x04 then some .compute
  else if c = 0x05 then some .rddigest
  else if c = 0x06 then some .dispose
  else none

/-- May B be 1? Only UPDATE and COMPUTE have a buffer (R72, R74). -/
def Opcode.allowsBuffer : Opcode → Bool
  | .init => false
  | .update => true
  | .final => false
  | .compute => true
  | .rddigest => false
  | .dispose => false

/-- `decode(word)` (R84), with the case of R78 that refuses it, tested in R84's order. -/
def decodeWord (w : Word) : Except Illegal Cmd :=
  if fieldRsv w ≠ 0 then .error .reservedBits
  else
    match Opcode.ofCode (fieldOp w) with
    | none => .error .reservedOpcode
    | some op => if fieldB w && !op.allowsBuffer then .error .bufferFlag else .ok { op := op, b := fieldB w }

/-- A command with no operands and no DATA (R73). -/
def decodeBare (i : Instr) (b : Bool) (ops : List Word) (data : List Byte) : Except Illegal Instr :=
  if b = false ∧ ops = [] ∧ data = [] then .ok i else .error .layout

/-- A command whose last operand is SIZE: DATA must carry exactly SIZE bytes (R76). -/
def decodeSized (i : Instr) (size : Word) (data : List Byte) : Except Illegal Instr :=
  if data.length = size.toNat then .ok i else .error .layout

/-- UPDATE's operands: OFF, CNT, SIZE and DATA with B = 1, OFF and CNT with B = 0 (R73). -/
def decodeUpdate (b : Bool) (ops : List Word) (data : List Byte) : Except Illegal Instr :=
  match ops with
  | [off, cnt] => if b = false ∧ data = [] then .ok (.update none off cnt) else .error .layout
  | [off, cnt, size] => if b then decodeSized (.update (some data) off cnt) size data else .error .layout
  | _ => .error .layout

/-- COMPUTE's operands: SIZE and DATA with B = 1, none with B = 0 (R73). -/
def decodeCompute (b : Bool) (ops : List Word) (data : List Byte) : Except Illegal Instr :=
  match ops with
  | [] => if b = false ∧ data = [] then .ok (.compute none) else .error .layout
  | [size] => if b then decodeSized (.compute (some data)) size data else .error .layout
  | _ => .error .layout

/-- The operands behind a command word (R73). -/
def decodeOperands (c : Cmd) (ops : List Word) (data : List Byte) : Except Illegal Instr :=
  match c.op with
  | .init => decodeBare .init c.b ops data
  | .update => decodeUpdate c.b ops data
  | .final => decodeBare .final c.b ops data
  | .compute => decodeCompute c.b ops data
  | .rddigest => decodeBare .rddigest c.b ops data
  | .dispose => decodeBare .dispose c.b ops data

/-- The decoder: a frame's command, or why it spells none (R78). -/
def decode (f : Frame) : Except Illegal Instr :=
  match f.units with
  | [] => .error .layout
  | w :: ops =>
    match decodeWord w with
    | .error e => .error e
    | .ok c => decodeOperands c ops f.data

/-- The operation code of R72. -/
def Opcode.code : Opcode → BitVec 8
  | .init => 0x01
  | .update => 0x02
  | .final => 0x03
  | .compute => 0x04
  | .rddigest => 0x05
  | .dispose => 0x06

/-- The command word of R71: RSV zero, then B, then OP. -/
def encodeWord (c : Cmd) : Word := (0 : BitVec 23) ++ BitVec.ofBool c.b ++ c.op.code

/-- `Cmd(op, b)` of a command (R72, R74). -/
def Instr.cmd : Instr → Cmd
  | .init => { op := .init, b := false }
  | .update buf _ _ => { op := .update, b := buf.isSome }
  | .final => { op := .final, b := false }
  | .compute buf => { op := .compute, b := buf.isSome }
  | .rddigest => { op := .rddigest, b := false }
  | .dispose => { op := .dispose, b := false }

/-- The SIZE operand of a buffer: one unit where there is a buffer, none where there is not (R73). -/
def sizeUnits : Option (List Byte) → List Word
  | none => []
  | some buf => [BitVec.ofNat 32 buf.length]

/-- The operand units of a command, in the order of R73. -/
def Instr.operandUnits : Instr → List Word
  | .init => []
  | .update buf off cnt => off :: cnt :: sizeUnits buf
  | .final => []
  | .compute buf => sizeUnits buf
  | .rddigest => []
  | .dispose => []

/-- The DATA bytes of a command (R73). -/
def Instr.data : Instr → List Byte
  | .init => []
  | .update buf _ _ => buf.getD []
  | .final => []
  | .compute buf => buf.getD []
  | .rddigest => []
  | .dispose => []

/-- The encoder: the frame of a command (R73). -/
def encode (i : Instr) : Frame := { units := encodeWord i.cmd :: i.operandUnits, data := i.data }

/-- How many operand units stand behind a command word (R73, R79: the word alone says so). A word that spells no command
has none. -/
def operandCount (w : Word) : Nat :=
  match decodeWord w with
  | .error _ => 0
  | .ok { op := .update, b := b } => if b then 3 else 2
  | .ok { op := .compute, b := b } => if b then 1 else 0
  | .ok _ => 0

/-- The frame whose command word is the low 32 bits of the opcode table's number `w` of `nbits` bits, and whose operand
units are the bits above, 32 at a time: zero above `nbits`. So SIZE is zero and there is no DATA (R73). -/
def tableFrame (nbits w : Nat) : Frame :=
  let bits := w % 2 ^ nbits
  let word : Word := BitVec.ofNat 32 bits
  { units := (List.range (operandCount word + 1)).map fun k => BitVec.ofNat 32 (bits / 2 ^ (32 * k)), data := [] }

/-- The command the decoder reads from the opcode table's number `w` of `nbits` bits. -/
def decodeTableWord (nbits w : Nat) : Option Instr :=
  match decode (tableFrame nbits w) with
  | .ok i => some i
  | .error _ => none

end Sys2Proof
end

