-- ==== Sys2Proof/Machine/Constants.lean ====
section
/-! DEFINITION. The fixed values of the engine: the initial chaining variables and the all-zero buffers
(10_state.md R21, R37). -/

namespace Sys2Proof.Machine

/-- `IV`, the initial value of DigestState (R21). -/
def iv : DigestState :=
  { h0 := 0x67452301, h1 := 0xEFCDAB89, h2 := 0x98BADCFE, h3 := 0x10325476, h4 := 0xC3D2E1F0 }

/-- Five zero words: H after DISPOSE (R37, R140). -/
def zeroState : DigestState := { h0 := 0, h1 := 0, h2 := 0, h3 := 0, h4 := 0 }

/-- `zeros(64)` as a block (R12, R140). -/
def zeroBlock : Block := ⟨(List.replicate 64 (0 : Byte)).toArray, by simp⟩

/-- `zeros(20)` (R12, R33). -/
def zeroDigest : Digest := ⟨(List.replicate 20 (0 : Byte)).toArray, by simp⟩

end Sys2Proof.Machine
end

