-- ==== Sys2Proof/Machine/Compressor.lean ====
section
/-! DEFINITION. Byte order, rotations and the Block Compressor (00_scope.md R11, R12; 20_memory.md R53 to R55;
41_block_compressor.md R150 to R162). -/

namespace Sys2Proof.Machine

/-- `rotl_n(a)` (R11). -/
def rotl (n : Nat) (a : Word) : Word := (a <<< n) ||| (a >>> (32 - n))

/-- `b0 ‖ b1 ‖ b2 ‖ b3`, the first byte most significant: `load_be32` of four bytes (R12, R53). -/
def loadBe32 (b0 b1 b2 b3 : Byte) : Word := b0 ++ b1 ++ b2 ++ b3

/-- `be32(w)`: the 4 bytes of `w`, most significant first (R12). -/
def be32 (w : Word) : List Byte :=
  [w.extractLsb' 24 8, w.extractLsb' 16 8, w.extractLsb' 8 8, w.extractLsb' 0 8]

/-- `be64(x)`: the 8 bytes of `x`, most significant first (R12, R54). -/
def be64 (x : BitVec 64) : List Byte :=
  be32 (x.extractLsb' 32 32) ++ be32 (x.extractLsb' 0 32)

/-- The big-endian words of a byte sequence, four bytes a word, in order (R53, R151). -/
def wordsOf : List Byte → List Word
  | b0 :: b1 :: b2 :: b3 :: rest => loadBe32 b0 b1 b2 b3 :: wordsOf rest
  | _ => []

/-- One step of the expansion (R152), on the words so far, LAST WORD FIRST: `W[t-3]`, `W[t-8]`, `W[t-14]`, `W[t-16]`
stand at positions 2, 7, 13, 15. At 16 or more words, as in `schedule`, all four exist. -/
def expandStep (w : List Word) : List Word :=
  rotl 1 (w.getD 2 0 ^^^ w.getD 7 0 ^^^ w.getD 13 0 ^^^ w.getD 15 0) :: w

/-- `n` steps of the expansion. -/
def expand : Nat → List Word → List Word
  | 0, w => w
  | n + 1, w => expand n (expandStep w)

/-- The MessageSchedule `W[0..79]` of a block: 16 words loaded, 64 expanded (R28, R151, R152). -/
def schedule (blk : Block) : List Word := (expand 64 (wordsOf blk.toList).reverse).reverse

/-- The choose function (R154). -/
def fCh (b c d : Word) : Word := (b &&& c) ||| (~~~b &&& d)

/-- The parity function (R155). -/
def fPar (b c d : Word) : Word := b ^^^ c ^^^ d

/-- The majority function (R156). -/
def fMaj (b c d : Word) : Word := (b &&& c) ||| (b &&& d) ||| (c &&& d)

/-- `f_t(b, c, d)` by round number (R157). -/
def roundF (t : Nat) (b c d : Word) : Word :=
  if t ≤ 19 then fCh b c d else if t ≤ 39 then fPar b c d else if t ≤ 59 then fMaj b c d else fPar b c d

/-- `K_t` by round number (R157). -/
def roundK (t : Nat) : Word :=
  if t ≤ 19 then 0x5A827999 else if t ≤ 39 then 0x6ED9EBA1 else if t ≤ 59 then 0x8F1BBCDC else 0xCA62C1D6

/-- The working variables a..e (R29). -/
structure Working where
  a : Word
  b : Word
  c : Word
  d : Word
  e : Word
  deriving DecidableEq, Repr

/-- The working variables start as copies of H (R153). PRESUMED: the spec marks this start as general knowledge, confirmed
by the source's known answers (log entry 11). -/
def Working.start (H : DigestState) : Working := { a := H.h0, b := H.h1, c := H.h2, d := H.h3, e := H.h4 }

/-- One round (R158). -/
def roundStep (t : Nat) (w : Word) (v : Working) : Working :=
  { a := v.e + rotl 5 v.a + roundF t v.b v.c v.d + roundK t + w
    b := v.a
    c := rotl 30 v.b
    d := v.c
    e := v.d }

/-- The rounds from number `t` on, one for each remaining schedule word, in order (R158). -/
def rounds : Nat → List Word → Working → Working
  | _, [], v => v
  | t, w :: ws, v => rounds (t + 1) ws (roundStep t w v)

/-- The feed-forward (R159). -/
def feedForward (H : DigestState) (v : Working) : DigestState :=
  { h0 := H.h0 + v.a, h1 := H.h1 + v.b, h2 := H.h2 + v.c, h3 := H.h3 + v.d, h4 := H.h4 + v.e }

/-- `Compress(H, blk)`, the Block Compressor (R150, R160). -/
def compress (H : DigestState) (blk : Block) : DigestState :=
  feedForward H (rounds 0 (schedule blk) (Working.start H))

/-- `Serialize(H)`: the 20 bytes of the digest, each word big-endian, h0 first (R55, R103). -/
def serialize (H : DigestState) : Digest :=
  ⟨(be32 H.h0 ++ be32 H.h1 ++ be32 H.h2 ++ be32 H.h3 ++ be32 H.h4).toArray, by simp [be32]⟩

end Sys2Proof.Machine
end

