-- ==== Sys2Proof/Config.lean ====
section
/-! DEFINITION. The design-time parameters the spec leaves open (00_scope.md R9). -/

namespace Sys2Proof

/-- `LONG_MSG` (R9, R122): what FINAL does when the total byte count reaches 2^61. -/
inductive LongMsg where
  | wrap
  | refuse
  deriving DecidableEq, Repr

/-- The parameters of R9. They are fixed for an engine: no step changes them (DESIGN CHOICE, log entry 1). -/
structure Config where
  /-- `ZL_STREAMING` (R9, R116): does an accepted UPDATE with CNT = 0 set STREAMING? -/
  zlStreaming : Bool
  /-- `LONG_MSG` (R9, R122). -/
  longMsg : LongMsg
  deriving DecidableEq, Repr

/-- The defaults R9 gives. -/
def Config.default : Config := { zlStreaming := true, longMsg := .wrap }

end Sys2Proof
end

