-- ==== Sys2Proof/Machine/State.lean ====
section
/-! DEFINITION. The engine's state, the host's side of the interface, and what a step can end in (10_state.md R20 to R38;
30_encoding.md R80, R81; 60_exceptions.md R201, R214). -/

namespace Sys2Proof.Machine

/-- The error kinds (R200, R201). -/
inductive ErrorKind where
  | invalidArgument
  | useAfterDispose
  | illegalState
  deriving DecidableEq, Repr

/-- STATUS by name (R81): OK, or the error kind. Its code is `Status.code`. -/
inductive Status where
  | ok
  | error (e : ErrorKind)
  deriving DecidableEq, Repr

/-- A response: STATUS, and RDATA where it is not empty (R80). -/
structure Response where
  status : Status
  rdata : Option Digest
  deriving DecidableEq, Repr

/-- Why the machine stops with a fault: never. The engine has no fault state and no stuck state of its own (R214 (3)), so
no meaning and no step can raise one, which is safe. -/
inductive Fault where
  deriving DecidableEq, Repr

/-- Why there is no step (R214 (2)). -/
inductive Refusal where
  /-- Raised by an arm of `exec` whose instruction has no meaning yet: none in this model. Safe. -/
  | notModelled (mnemonic : String)
  /-- Raised by `step` for a frame that spells no command, with the case of R78. Safe: no claim about a run through such a
  frame can be proved (R78). -/
  | illegalFrame (why : Illegal)
  /-- Raised by FINAL, and by COMPUTE's FINAL, under LONG_MSG = refuse with 2^61 or more message bytes (R122). Safe. -/
  | messageTooLong
  deriving DecidableEq, Repr

/-- The machine: the tuple of R36, the host's inputs with `pc` (R14, R36), the responses the host has received (R70), and the
design-time parameters (R9). -/
structure State where
  /-- DigestState (R20). -/
  H : DigestState
  /-- ByteCounter (R22). -/
  CNTR : Counter
  /-- The CarryBuffer's bytes (R24). -/
  CB : Block
  /-- The CarryBuffer's fill count (R24): below 64 between commands (R25, `Inv`). -/
  FILL : Nat
  /-- An UPDATE has been accepted since the last INIT, FINAL, COMPUTE or reset (R30). -/
  STREAMING : Bool
  /-- DOUT holds the digest of a completed FINAL or COMPUTE (R31). -/
  DIGEST_VALID : Bool
  /-- The engine is disposed (R32). -/
  DISPOSED : Bool
  /-- The digest output register (R33). -/
  DOUT : Digest
  /-- What the host will do, in order (R14, R50): a frame carries its buffer. -/
  host : List HostInput
  /-- The index in `host` of the next input (R14). -/
  pc : Nat
  /-- The responses the host has received, oldest first (R70, R80; DESIGN CHOICE, log entry 5). -/
  responses : List Response
  /-- The parameters of R9, which no step changes (DESIGN CHOICE, log entry 1). -/
  cfg : Config
  deriving DecidableEq, Repr

/-- The machine right after hardware reset (R37, R230, R233). The spec leaves CB open there: zero (DESIGN CHOICE, log entry 2).
The host's inputs are loaded from outside (log entry 3), no response has been received (log entry 5), and the
parameters have their defaults (R9, log entry 1). -/
def State.reset : State :=
  { H := iv
    CNTR := 0
    CB := zeroBlock
    FILL := 0
    STREAMING := false
    DIGEST_VALID := false
    DISPOSED := false
    DOUT := zeroDigest
    host := []
    pc := 0
    responses := []
    cfg := Config.default }

end Sys2Proof.Machine
end

