-- ==== Sys2Proof/Machine/Flags.lean ====
section
/-! DEFINITION. The flag rules and the status codes (10_state.md R30 to R32; 30_encoding.md R81; 40_digest_engine.md R116;
60_exceptions.md R201, R208). -/

namespace Sys2Proof.Machine

/-- The code of an error kind (R81, R201). -/
def ErrorKind.code : ErrorKind → BitVec 8
  | .invalidArgument => 0x01
  | .useAfterDispose => 0x02
  | .illegalState => 0x03

/-- The 8-bit STATUS code (R80, R81). -/
def Status.code : Status → BitVec 8
  | .ok => 0x00
  | .error e => e.code

/-- STREAMING after an accepted UPDATE of `cnt` bytes (R116): set when `cnt > 0`, and when `cnt = 0` only under
ZL_STREAMING = true. Otherwise it keeps its value. -/
def streamingAfterUpdate (cfg : Config) (cnt : Nat) (old : Bool) : Bool :=
  if 0 < cnt ∨ cfg.zlStreaming = true then true else old

/-- May the digest be read? Not mid-stream, and only after a completed FINAL or COMPUTE (R135, R208). -/
def digestReadable (s : State) : Bool := !s.STREAMING && s.DIGEST_VALID

/-- Does LONG_MSG leave FINAL without a step at `total` message bytes (R122)? -/
def tooLong (cfg : Config) (total : Nat) : Bool := decide (2 ^ 61 ≤ total) && decide (cfg.longMsg = .refuse)

end Sys2Proof.Machine
end

