-- ==== Sys2Proof/Machine/Operands.lean ====
section
/-! DEFINITION. How a command reads its operands and the host buffer (30_encoding.md R75, R76; 20_memory.md R50, R51;
40_digest_engine.md R111). -/

namespace Sys2Proof.Machine

/-- `sext_32`: OFF and CNT are two's-complement integers (R75). -/
def sext32 (w : Word) : Int := w.toInt

/-- `zext_32`: SIZE is unsigned (R76). -/
def zext32 (w : Word) : Nat := w.toNat

/-- `HostRead(buf, i)`: byte `i` of the host buffer, defined only for `i < SIZE` (R51). -/
def hostRead (buf : List Byte) (i : Nat) : Option Byte := buf[i]?

/-- The message bytes `OFF, OFF+1, …, OFF+CNT-1` of the host buffer, in that order (R51). -/
def hostBytes (buf : List Byte) (off cnt : Nat) : List Byte := (buf.drop off).take cnt

/-- The checks (b), (c) and (d) of R111, over the integers (R76): does the argument triple pass them? -/
def argsOk (off cnt : Int) (size : Nat) : Bool :=
  decide (0 ≤ off) && decide (0 ≤ cnt) && decide (off + cnt ≤ (size : Int))

/-- UPDATE's arguments after the check of R111: the message bytes, or nothing where the command is rejected. An absent
buffer is rejected whatever OFF and CNT are (R111 (a), D24). -/
def updateInput (buf : Option (List Byte)) (off cnt : Word) : Option (List Byte) :=
  match buf with
  | none => none
  | some d =>
    if argsOk (sext32 off) (sext32 cnt) d.length
    then some (hostBytes d (sext32 off).toNat (sext32 cnt).toNat)
    else none

end Sys2Proof.Machine
end

