-- ==== Sys2Proof/Machine/Ops.lean ====
section
/-! DEFINITION. The operations the commands share: responding and rejecting, the CarryBuffer, compressing the message, padding,
ResetCore, hardware reset, and fetching the host's next input. -/

namespace Sys2Proof.Machine

/-! ## Responses and errors -/

/-- A command completes: the host receives its response (R70, R80) and moves on by one (R14). -/
def respond (r : Response) (s : State) : State :=
  { s with responses := s.responses ++ [r], pc := s.pc + 1 }

/-- A command completes with STATUS = OK (R80). -/
def accept (rdata : Option Digest) (s : State) : Host.Outcome State Fault Refusal :=
  .next (respond { status := .ok, rdata := rdata } s)

/-- A command ends with an error. This is all that stands in for taking an exception (R212): the response carries
the kind's STATUS and nothing else (R202), no element of the engine's state changes (R204), and the host's next command is
taken as usual. There is no handler, so there is no return from one either (R213). -/
def reject (e : ErrorKind) (s : State) : Host.Outcome State Fault Refusal :=
  .next (respond { status := .error e, rdata := none } s)

/-- Every command is rejected with UseAfterDispose, before any other check, while DISPOSED = 1 (R207, R210). -/
def unlessDisposed (s : State) (k : Host.Outcome State Fault Refusal) : Host.Outcome State Fault Refusal :=
  if s.DISPOSED then reject .useAfterDispose s else k

/-! ## The CarryBuffer -/

/-- Writes the bytes to `CB[at], CB[at+1], …` in order. A position of 64 or more does not exist and is not written. -/
def writeBytes (cb : Block) (pos : Nat) : List Byte → Block
  | [] => cb
  | b :: bs => writeBytes (cb.setIfInBounds pos b) (pos + 1) bs

/-- `CB[0..FILL)`, the buffered bytes (R102, R117). -/
def buffered (s : State) : List Byte := s.CB.toList.take s.FILL

/-- Appends input bytes to the CarryBuffer in input order (R112). -/
def appendCarry (s : State) (bs : List Byte) : State :=
  { s with CB := writeBytes s.CB s.FILL bs, FILL := s.FILL + bs.length }

/-- Stores the trailing bytes at the start of the CarryBuffer (R115). -/
def storeTail (s : State) (bs : List Byte) : State :=
  { s with CB := writeBytes s.CB 0 bs, FILL := bs.length }

/-! ## Compressing the message -/

/-- The first 64 bytes of a long enough byte sequence, as a block. -/
def firstBlock (bs : List Byte) (h : 64 ≤ bs.length) : Block := ⟨(bs.take 64).toArray, by simp [h]⟩

/-- The first `n` whole 64-byte blocks of a byte sequence, in order. -/
def blocksOf : Nat → List Byte → List Block
  | 0, _ => []
  | n + 1, bs => if h : 64 ≤ bs.length then firstBlock bs h :: blocksOf n (bs.drop 64) else []

/-- The whole 64-byte blocks of a byte sequence, in order (R104, R114, R124). -/
def wholeBlocks (bs : List Byte) : List Block := blocksOf (bs.length / 64) bs

/-- The bytes after the last whole block: the last `n mod 64` bytes (R115). -/
def tailBytes (bs : List Byte) : List Byte := bs.drop (64 * (bs.length / 64))

/-- Compresses blocks in order (R114, R124). -/
def compressAll (H : DigestState) (blks : List Block) : DigestState := blks.foldl compress H

/-- Compresses message blocks in order, and advances CNTR by 64 for each, modulo 2^64 (R23, R113, R114). -/
def compressMessage (s : State) (blks : List Block) : State :=
  { s with H := compressAll s.H blks, CNTR := s.CNTR + BitVec.ofNat 64 (64 * blks.length) }

/-- UPDATE steps 3 and 4, with the CarryBuffer empty (R114, R115): compress every whole block, store the rest. -/
def absorbAligned (s : State) (inp : List Byte) : State :=
  storeTail (compressMessage s (wholeBlocks inp)) (tailBytes inp)

/-- UPDATE steps 1 to 4 on the message bytes `inp` (R110, R112 to R115). -/
def absorb (s : State) (inp : List Byte) : State :=
  if 0 < s.FILL then
    let k := min inp.length (64 - s.FILL)
    let s1 := appendCarry s (inp.take k)
    if s1.FILL < 64 then s1
    else absorbAligned { compressMessage s1 [s1.CB] with FILL := 0 } (inp.drop k)
  else absorbAligned s inp

/-- The body of an accepted UPDATE (R110): absorb the bytes, then set STREAMING by R116. -/
def updateBody (s : State) (inp : List Byte) : State :=
  { absorb s inp with STREAMING := streamingAfterUpdate s.cfg inp.length s.STREAMING }

/-! ## Initialising -/

/-- `ResetCore` (R101): H, CNTR and FILL only. -/
def resetCore (s : State) : State := { s with H := iv, CNTR := 0, FILL := 0 }

/-- The body of INIT (R105). -/
def initBody (s : State) : State :=
  { resetCore s with STREAMING := false, DIGEST_VALID := false, DOUT := zeroDigest }

/-- The body of DISPOSE (R140). -/
def disposeBody (s : State) : State :=
  { s with
    H := zeroState
    CNTR := 0
    CB := zeroBlock
    FILL := 0
    DOUT := zeroDigest
    STREAMING := false
    DIGEST_VALID := false
    DISPOSED := true }

/-! ## Padding and the digest -/

/-- The number of pad bytes behind `f` buffered bytes, the 0x80 byte counted: `P <- 56 - f; if P <= 0: P <- P + 64` (R102, C2). -/
def padCount (f : Nat) : Nat := (if (56 : Int) - f ≤ 0 then (56 : Int) - f + 64 else (56 : Int) - f).toNat

/-- `(8 * total) mod 2^64` (R122). -/
def bitLength (total : Nat) : BitVec 64 := BitVec.ofNat 64 (8 * total)

/-- `PadTail(tail, total)` (R102). -/
def padTail (tail : List Byte) (total : Nat) : List Byte :=
  tail ++ [0x80] ++ List.replicate (padCount tail.length - 1) 0 ++ be64 (bitLength total)

/-- `total = CNTR + FILL`, the message length in bytes (R121). -/
def totalBytes (s : State) : Nat := s.CNTR.toNat + s.FILL

/-- The digest FINAL returns: the last one or two blocks compressed, then serialised (R123, R124, R126). -/
def finalDigest (s : State) : Digest :=
  serialize (compressAll s.H (wholeBlocks (padTail (buffered s) (totalBytes s))))

/-- The state FINAL leaves, its response apart: the digest latched, the core at its initial values (R127, R128). CB keeps
its bytes (R37; DEDUCED, log entry 9). -/
def finalBody (s : State) : State :=
  { resetCore s with DOUT := finalDigest s, DIGEST_VALID := true, STREAMING := false }

/-- The body of FINAL (R120), with the refusal of R122. -/
def finalize (s : State) : Host.Outcome State Fault Refusal :=
  if tooLong s.cfg (totalBytes s) then .refused .messageTooLong else accept (some (finalDigest s)) (finalBody s)

/-! ## Reset and the host's inputs -/

/-- Hardware reset (R230): every element at its reset value (R37), CB at the value `State.reset` names (log entry 2). It
produces no response. The host's next command is command 0 of its list (R233): what it lists behind the reset (log
entry 3). -/
def hardwareReset (s : State) : State :=
  { State.reset with host := s.host.drop (s.pc + 1), responses := s.responses, cfg := s.cfg }

/-- The host's next input, where it has one (R14, R70). -/
def nextInput (s : State) : Option HostInput := s.host[s.pc]?

/-- With no input the engine waits, and nothing changes (R233; DESIGN CHOICE, log entry 4). -/
def wait (s : State) : Host.Outcome State Fault Refusal := .next s

/-- A frame that spells no command has no step (R78). -/
def refuseFrame (why : Illegal) : Host.Outcome State Fault Refusal := .refused (.illegalFrame why)

/-- `s` with the frame as the host's next input. (A `pc` beyond the end of the list, which no run reaches, is reached by
repeating the frame.) -/
def placeFrame (s : State) (f : Frame) : State :=
  { s with host := (s.host ++ List.replicate (s.pc + 1 - s.host.length) (HostInput.frame f)).set s.pc (HostInput.frame f) }

end Sys2Proof.Machine
end

