-- ==== Sys2Proof/Machine/Digest.lean ====
section
/-! DEFINITION. The commands around the stream: COMPUTE, RDDIGEST, DISPOSE (40_digest_engine.md R130 to R141). -/

namespace Sys2Proof.Machine

/-- COMPUTE (R130, R131): the bodies of INIT, UPDATE and FINAL as one command. The buffer is checked before any of them (D18). -/
def execCompute (buf : Option (List Byte)) (s : State) : Host.Outcome State Fault Refusal :=
  unlessDisposed s <|
    match buf with
    | none => reject .invalidArgument s
    | some d => finalize (updateBody (initBody s) d)

/-- RDDIGEST (R135, R136). -/
def execRddigest (s : State) : Host.Outcome State Fault Refusal :=
  unlessDisposed s <|
    if digestReadable s then accept (some s.DOUT) s else reject .illegalState s

/-- DISPOSE (R140, R141). -/
def execDispose (s : State) : Host.Outcome State Fault Refusal :=
  unlessDisposed s (accept none (disposeBody s))

end Sys2Proof.Machine
end

