-- ==== Sys2Proof/Machine/Stream.lean ====
section
/-! DEFINITION. The streaming commands: INIT, UPDATE, FINAL (40_digest_engine.md R105 to R129). -/

namespace Sys2Proof.Machine

/-- INIT (R105, R106). -/
def execInit (s : State) : Host.Outcome State Fault Refusal :=
  unlessDisposed s (accept none (initBody s))

/-- UPDATE (R110 to R117). -/
def execUpdate (buf : Option (List Byte)) (off cnt : Word) (s : State) : Host.Outcome State Fault Refusal :=
  unlessDisposed s <|
    match updateInput buf off cnt with
    | none => reject .invalidArgument s
    | some inp => accept none (updateBody s inp)

/-- FINAL (R120 to R129). -/
def execFinal (s : State) : Host.Outcome State Fault Refusal :=
  unlessDisposed s (finalize s)

end Sys2Proof.Machine
end

