-- ==== Sys2Proof/Machine/Dispatch.lean ====
section
/-! DEFINITION. One arm for each command. -/

namespace Sys2Proof.Machine

def exec (i : Instr) (s : State) : Host.Outcome State Fault Refusal :=
  match i with
  | .init => Sys2Proof.Machine.execInit s
  | .update buf off cnt => Sys2Proof.Machine.execUpdate buf off cnt s
  | .final => Sys2Proof.Machine.execFinal s
  | .compute buf => Sys2Proof.Machine.execCompute buf s
  | .rddigest => Sys2Proof.Machine.execRddigest s
  | .dispose => Sys2Proof.Machine.execDispose s

end Sys2Proof.Machine
end

