-- ==== Sys2Proof/Machine/Step.lean ====
section
/-! DEFINITION. One step: the host's next input, taken whole (20_memory.md R60; 30_encoding.md R70, R78; 70_reset_and_hazards.md
R230, R233). -/

namespace Sys2Proof.Machine

/-- A step takes the host's next input: a frame is decoded and its command run (R70), or refused (R78); the reset input
resets (R230); with no input the engine waits (log entry 4). -/
def step (s : State) : Host.Outcome State Fault Refusal :=
  match nextInput s with
  | none => wait s
  | some .reset => .next (hardwareReset s)
  | some (.frame f) =>
    match decode f with
    | .error why => refuseFrame why
    | .ok i => exec i s

/-- `s` with the frame of the opcode table's number `w` of `nbits` bits as the host's next input, operand units zero and no
DATA. -/
def State.withFetchWord (s : State) (nbits w : Nat) : State := placeFrame s (tableFrame nbits w)

end Sys2Proof.Machine
end

