-- ==== Sys2Proof/Machine/Assembler.lean ====
section
/-! DEFINITION. The textual form of a command and the pseudo-commands (30_encoding.md R82, R83). A program text is a list of
lines, a line a list of characters. What R82 leaves open (white space, a sign before `0x`, lower-case hexadecimal digits,
no escape inside quotes, `hex:` with no digits, which words are names, a name bound twice) is a DESIGN CHOICE, log entry 13. -/

namespace Sys2Proof.Machine

/-! ## Pseudo-commands -/

/-- A line's command: one of the six, or a pseudo-command of R83. -/
inductive AsmCommand where
  | plain (i : Instr)
  | updateAll (buf : List Byte)
  | hash (buf : List Byte)
  deriving DecidableEq, Repr

/-- `UPDATE <buf>, 0, len(<buf>)` (R83). -/
def wholeUpdate (buf : List Byte) : Instr := .update (some buf) 0 (BitVec.ofNat 32 buf.length)

/-- The commands a line stands for (R83). -/
def AsmCommand.expand : AsmCommand → List Instr
  | .plain i => [i]
  | .updateAll buf => [wholeUpdate buf]
  | .hash buf => [.init, wholeUpdate buf, .final]

/-- A command has a frame when its buffer fits SIZE. An expansion also needs its length to be a CNT operand (R75, R82). -/
def AsmCommand.encodable : AsmCommand → Bool
  | .plain i => i.wf
  | .updateAll buf => decide (buf.length < 2 ^ 31)
  | .hash buf => decide (buf.length < 2 ^ 31)

/-! ## Tokens -/

/-- What a line is made of (R82). -/
inductive Token where
  | word (cs : List Char)
  | text (bs : List Byte)
  | comma
  | equals
  deriving DecidableEq, Repr

/-- Where the reader stands: in a word, or inside quotes; what it has read is held last first. -/
inductive LexState where
  | inWord (cs : List Char)
  | inText (bs : List Byte)
  deriving DecidableEq, Repr

/-- The double quote. -/
def quoteChar : Char := Char.ofNat 34

/-- The word read so far, if any, in front of the tokens behind it. -/
def closeWord (cs : List Char) (rest : List Token) : List Token :=
  match cs with
  | [] => rest
  | _ :: _ => .word cs.reverse :: rest

/-- The tokens of a line. `;` outside quotes starts a comment. Quoted text is ASCII bytes with no terminator (R82), and an
unclosed quote or another character in it is no token. -/
def tokens : LexState → List Char → Option (List Token)
  | .inWord cs, [] => some (closeWord cs [])
  | .inText _, [] => none
  | .inText bs, c :: rest =>
    if c = quoteChar then (tokens (.inWord []) rest).map (Token.text bs.reverse :: ·)
    else if c.toNat < 128 then tokens (.inText (BitVec.ofNat 8 c.toNat :: bs)) rest
    else none
  | .inWord cs, c :: rest =>
    if c = quoteChar then (tokens (.inText []) rest).map (closeWord cs)
    else if c = ';' then some (closeWord cs [])
    else if c = ',' then (tokens (.inWord []) rest).map fun ts => closeWord cs (.comma :: ts)
    else if c = '=' then (tokens (.inWord []) rest).map fun ts => closeWord cs (.equals :: ts)
    else if c = ' ' ∨ c = '\t' then (tokens (.inWord []) rest).map (closeWord cs)
    else tokens (.inWord (c :: cs)) rest

/-! ## Operands -/

/-- A digit's value, hexadecimal digits in either case. -/
def digitValue (c : Char) : Option Nat :=
  if '0'.toNat ≤ c.toNat ∧ c.toNat ≤ '9'.toNat then some (c.toNat - '0'.toNat)
  else if 'a'.toNat ≤ c.toNat ∧ c.toNat ≤ 'f'.toNat then some (c.toNat - 'a'.toNat + 10)
  else if 'A'.toNat ≤ c.toNat ∧ c.toNat ≤ 'F'.toNat then some (c.toNat - 'A'.toNat + 10)
  else none

/-- The number that the digits spell behind the value `acc`. -/
def digitsValue (base : Nat) : Nat → List Char → Option Nat
  | acc, [] => some acc
  | acc, c :: cs =>
    match digitValue c with
    | none => none
    | some d => if d < base then digitsValue base (base * acc + d) cs else none

/-- A number: decimal, or hexadecimal behind `0x` (R82). -/
def magnitude : List Char → Option Nat
  | [] => none
  | ['0', 'x'] => none
  | '0' :: 'x' :: ds => digitsValue 16 0 ds
  | ds => digitsValue 10 0 ds

/-- An OFF or CNT operand: an integer in -2^31 .. 2^31-1 (R82), as its unit (R75). -/
def signedOperand (cs : List Char) : Option Word :=
  let value : Option Int :=
    match cs with
    | '-' :: ds => (magnitude ds).map fun n => -(n : Int)
    | ds => (magnitude ds).map fun n => (n : Int)
  match value with
  | none => none
  | some v => if -(2 ^ 31 : Int) ≤ v ∧ v ≤ 2 ^ 31 - 1 then some (BitVec.ofInt 32 v) else none

/-- The bytes of a `hex:` sequence, two digits a byte, first byte first. With no digits it is the empty sequence, where R82 writes only
`hex:0011…`: DESIGN CHOICE, log entry 13. -/
def hexBytes : List Char → Option (List Byte)
  | [] => some []
  | [_] => none
  | c :: d :: rest =>
    match digitValue c, digitValue d, hexBytes rest with
    | some hi, some lo, some bs => some (BitVec.ofNat 8 (16 * hi + lo) :: bs)
    | _, _, _ => none

/-- The byte sequences bound by `.buf`, the latest first: a name bound twice stands for its latest sequence (DESIGN CHOICE, log
entry 13). -/
abbrev Bindings := List (List Char × List Byte)

/-- The words that `.buf` may bind: all but `-`, which spells an absent buffer, and those that begin with `hex:`, which spell a byte
sequence. R82 does not say which words are names: DESIGN CHOICE, log entry 13. -/
def isName : List Char → Bool
  | ['-'] => false
  | 'h' :: 'e' :: 'x' :: ':' :: _ => false
  | _ => true

/-- A byte sequence: quoted text, `hex:…`, or a name bound earlier (R82). -/
def sequenceOperand (env : Bindings) : Token → Option (List Byte)
  | .text bs => some bs
  | .word ('h' :: 'e' :: 'x' :: ':' :: ds) => hexBytes ds
  | .word cs => env.lookup cs
  | .comma => none
  | .equals => none

/-- A buffer operand: `-` for an absent one (B = 0), or a byte sequence (R82). -/
def bufferOperand (env : Bindings) (t : Token) : Option (Option (List Byte)) :=
  if t = .word ['-'] then some none else (sequenceOperand env t).map some

/-! ## Lines and programs -/

/-- The command of a line's tokens (R82, R83). -/
def commandOf (env : Bindings) : List Token → Option AsmCommand
  | [.word ['I', 'N', 'I', 'T']] => some (.plain .init)
  | [.word ['F', 'I', 'N', 'A', 'L']] => some (.plain .final)
  | [.word ['R', 'D', 'D', 'I', 'G', 'E', 'S', 'T']] => some (.plain .rddigest)
  | [.word ['D', 'I', 'S', 'P', 'O', 'S', 'E']] => some (.plain .dispose)
  | [.word ['C', 'O', 'M', 'P', 'U', 'T', 'E'], t] => (bufferOperand env t).map fun b => .plain (.compute b)
  | [.word ['U', 'P', 'D', 'A', 'T', 'E'], t, .comma, .word off, .comma, .word cnt] =>
    match bufferOperand env t, signedOperand off, signedOperand cnt with
    | some b, some o, some c => some (.plain (.update b o c))
    | _, _, _ => none
  | [.word ['U', 'P', 'D', 'A', 'T', 'E'], t] => (sequenceOperand env t).map .updateAll
  | [.word ['H', 'A', 'S', 'H'], t] => (sequenceOperand env t).map .hash
  | _ => none

/-- The frames of a line, and the bindings after it: no frame for an empty line or a `.buf` line (R82, R83). A `.buf` of a name already
bound puts the new sequence in front, where R82 says only `a name bound earlier`, and a `.buf` of a word that is no name has no
meaning: DESIGN CHOICE, log entry 13. -/
def assembleLine (env : Bindings) (ts : List Token) : Option (Bindings × List Frame) :=
  match ts with
  | [] => some (env, [])
  | [.word ['.', 'b', 'u', 'f'], .word name, .equals, t] =>
    if isName name then (sequenceOperand env t).map fun bs => ((name, bs) :: env, []) else none
  | _ =>
    match commandOf env ts with
    | none => none
    | some c => if c.encodable then some (env, c.expand.map encode) else none

/-- The frames of the lines under the bindings so far, in order, or nothing where a line has no meaning. -/
def assembleFrom : Bindings → List (List Char) → Option (List Frame)
  | _, [] => some []
  | env, line :: rest =>
    match tokens (.inWord []) line with
    | none => none
    | some ts =>
      match assembleLine env ts with
      | none => none
      | some (env', fs) => (assembleFrom env' rest).map (fs ++ ·)

/-- The frames of a program text (R82, R83). -/
def assemble (lines : List (List Char)) : Option (List Frame) := assembleFrom [] lines

end Sys2Proof.Machine
end

