-- ==== Sys2Proof/Machine/Message.lean ====
section
/-! DEFINITION. The digest as a function of the whole message, written without the engine's buffering (40_digest_engine.md
R104), and the compressor over a rolling window of 16 words (41_block_compressor.md R161). Statements hold the engine
against these; no command calls them. -/

namespace Sys2Proof.Machine

/-- The number of zero bytes behind the 0x80 byte of a message of `n` bytes: the least `p` with `(n + 1 + p) mod 64 = 56`
(R104). -/
def zeroPad (n : Nat) : Nat := (119 - n % 64) % 64

/-- `X = M ‖ [0x80] ‖ zeros(p) ‖ be64(8n)` (R104). -/
def paddedMessage (m : List Byte) : List Byte :=
  m ++ [0x80] ++ List.replicate (zeroPad m.length) 0 ++ be64 (bitLength m.length)

/-- `SHA1(M)` (R104). -/
def sha1 (m : List Byte) : Digest := serialize (compressAll iv (wholeBlocks (paddedMessage m)))

/-- The next schedule word from the window of the last 16, oldest first (R152), where the window has them. -/
def nextWord (win : List Word) : Word :=
  rotl 1 (win.getD 13 0 ^^^ win.getD 8 0 ^^^ win.getD 2 0 ^^^ win.getD 0 0)

/-- `n` rounds from number `t` on, each using the oldest word of the window and letting the next one in (R161). -/
def rollingRounds : Nat → Nat → List Word → Working → Working
  | 0, _, _, v => v
  | n + 1, t, win, v => rollingRounds n (t + 1) (win.tail ++ [nextWord win]) (roundStep t (win.getD 0 0) v)

/-- The compressor over a rolling window: the same function as `compress` by R161. -/
def compressRolling (H : DigestState) (blk : Block) : DigestState :=
  feedForward H (rollingRounds 80 0 (wordsOf blk.toList) (Working.start H))

end Sys2Proof.Machine
end

