-- ==== Sys2Proof/Safety.lean ====
section
/-! DEFINITION. The terms the statements use: the invariant of the states a run reaches, runs of several commands, what an outside
observer cannot tell apart, and what a safe step is. -/

namespace Sys2Proof.Machine

/-- The core at its initial values (R101). -/
def CoreInitial (s : State) : Prop := s.H = iv ∧ s.CNTR = 0 ∧ s.FILL = 0

/-- What DISPOSE leaves (R37, R140). -/
def Wiped (s : State) : Prop :=
  s.H = zeroState ∧ s.CNTR = 0 ∧ s.CB = zeroBlock ∧ s.FILL = 0 ∧ s.DOUT = zeroDigest ∧ s.STREAMING = false ∧
    s.DIGEST_VALID = false

/-- The invariant of the engine between commands. -/
structure Inv (s : State) : Prop where
  /-- Less than a block is buffered (R25). -/
  fill_lt : s.FILL < 64
  /-- CNTR is a multiple of 64 (R23). -/
  counter_aligned : s.CNTR.toNat % 64 = 0
  /-- With no message begun the core is at its initial values (R30, R37). -/
  idle_core : s.STREAMING = false → s.DISPOSED = false → CoreInitial s
  /-- With no digest DOUT is zero (R31, R33, R37). -/
  no_digest : s.DIGEST_VALID = false → s.DOUT = zeroDigest
  /-- A disposed engine holds nothing (R37, R141 (a)). -/
  disposed_wiped : s.DISPOSED = true → Wiped s
  /-- The host is inside its list or at its end (R14). -/
  pc_le : s.pc ≤ s.host.length

/-- The commands run in order, each on the state the one before left, stopping at the first that has no step: the left
fold of R60. -/
def runCommands : List Instr → State → Host.Outcome State Fault Refusal
  | [], s => .next s
  | i :: is, s =>
    match exec i s with
    | .next t => runCommands is t
    | .fault r => .fault r
    | .refused r => .refused r

/-- A message fed in pieces, each by one UPDATE of the whole piece (R118). -/
def feedPieces (pieces : List (List Byte)) : List Instr := pieces.map wholeUpdate

/-- Each piece is one UPDATE's worth: its length is a CNT operand (R75). -/
def piecesFit (pieces : List (List Byte)) : Prop := ∀ p ∈ pieces, p.length < 2 ^ 31

/-- The state of the message so far: H, CNTR, FILL and `CB[0..FILL)` (R118). -/
def messageState (s : State) : DigestState × Counter × Nat × List Byte := (s.H, s.CNTR, s.FILL, buffered s)

/-- A rejected command: one error response, and nothing else but the host's position (R204). -/
def rejected (e : ErrorKind) (s : State) : State :=
  { s with responses := s.responses ++ [{ status := .error e, rdata := none }], pc := s.pc + 1 }

/-- An accepted command that leaves the engine in `s`: one OK response, and the host's position moved on (R14, R80). -/
def accepted (rdata : Option Digest) (s : State) : State :=
  { s with responses := s.responses ++ [{ status := .ok, rdata := rdata }], pc := s.pc + 1 }

/-- The two states differ in nothing but bytes of `CB[FILL..63]`, which carry no meaning (R27). -/
def SameButStale (s t : State) : Prop := { s with CB := t.CB } = t ∧ buffered s = buffered t

/-- Two outcomes of the same kind, with next states related by `R`. -/
def SameOutcome (R : State → State → Prop) (x y : Host.Outcome State Fault Refusal) : Prop :=
  match x, y with
  | .next s, .next t => R s t
  | .refused a, .refused b => a = b
  | .fault a, .fault b => a = b
  | _, _ => False

/-- A step that has a next state: no refusal. -/
def SafeStep (s : State) : Prop := ∃ t, step s = .next t

end Sys2Proof.Machine
end

