-- ==== Sys2Proof/Certificates/Slice0/Obligations.lean ====
section
/-! DEFINITION. What the provers are asked to prove, from the spec's numbered rules. Each docstring names the rules and says where
a clause is the spec's own decision (D<n>) or the model's choice (a log entry). -/

open Sys2Proof Sys2Proof.Machine

/-! ## Encoding -/

/-- 30_encoding.md sections 2 to 4: every command that has a frame is read back from it, every operand at every value. The
encoding is the spec's own (D2). -/
def Obligations.DecodingAnEncodedCommandGivesItBack : Prop :=
  ∀ i : Instr, i.wf = true → decode (encode i) = .ok i

/-- 30_encoding.md sections 2 to 4: a frame spells at most one command, and it is that command's only frame. -/
def Obligations.EveryAcceptedFrameIsItsCommandsEncoding : Prop :=
  ∀ (f : Frame) (i : Instr), decode f = .ok i → i.wf = true ∧ encode i = f

/-- 30_encoding.md section 4, the function `decode(word)`: RSV zero, OP one of the six, B only on UPDATE and COMPUTE (D2, D3). -/
def Obligations.CommandWordsDecodeAsTheOpcodeMapSays : Prop :=
  ∀ (w : Word) (c : Cmd), decodeWord w = .ok c ↔
    w.toNat / 2 ^ 9 = 0 ∧ c.b = w.getLsbD 8 ∧
    ((c.op = .init ∧ w.toNat % 256 = 1) ∨ (c.op = .update ∧ w.toNat % 256 = 2) ∨ (c.op = .final ∧ w.toNat % 256 = 3) ∨
      (c.op = .compute ∧ w.toNat % 256 = 4) ∨ (c.op = .rddigest ∧ w.toNat % 256 = 5) ∨
      (c.op = .dispose ∧ w.toNat % 256 = 6)) ∧
    (c.b = true → c.op = .update ∨ c.op = .compute)

/-- 30_encoding.md, the command word values, and 95_test_vectors.md sections 6 and 7: a few frames written out decode to the
commands they stand for, and a few words to none. -/
def Obligations.WrittenOutFramesDecode : Prop :=
  decode { units := [0b00000000000000000000000000000001], data := [] } = .ok .init ∧
  decode { units := [0b00000000000000000000000100000010, 0xFFFFFFFF, 3, 2], data := [0x61, 0x62] } =
    .ok (.update (some [0x61, 0x62]) 0xFFFFFFFF 3) ∧
  decode { units := [0b00000000000000000000000000000010, 5, 7], data := [] } = .ok (.update none 5 7) ∧
  decode { units := [0b00000000000000000000000000000011], data := [] } = .ok .final ∧
  decode { units := [0b00000000000000000000000100000100, 1], data := [0x78] } = .ok (.compute (some [0x78])) ∧
  decode { units := [0b00000000000000000000000000000100], data := [] } = .ok (.compute none) ∧
  decode { units := [0b00000000000000000000000000000101], data := [] } = .ok .rddigest ∧
  decode { units := [0b00000000000000000000000000000110], data := [] } = .ok .dispose ∧
  decode { units := [0x80000003], data := [] } = .error .reservedBits ∧
  decode { units := [0x00000007], data := [] } = .error .reservedOpcode ∧
  decode { units := [0x00000105], data := [] } = .error .bufferFlag ∧
  decode { units := [0x00000104, 2], data := [0x78] } = .error .layout

/-- 30_encoding.md sections 4 and 6, 60_exceptions.md section 3: a frame that is no command's frame has no step (D3). -/
def Obligations.AFrameThatSpellsNoCommandIsRefused : Prop :=
  ∀ (s : State) (f : Frame), nextInput s = some (.frame f) → (¬ ∃ i : Instr, i.wf = true ∧ encode i = f) →
    ∃ why, step s = .refused (.illegalFrame why)

/-- 30_encoding.md section 6: every frame an assembled text gives spells a command (D20). -/
def Obligations.AssembledFramesSpellCommands : Prop :=
  ∀ (lines : List (List Char)) (fs : List Frame), assemble lines = some fs → ∀ f ∈ fs, ∃ i, decode f = .ok i

/-! ## The step -/

/-- 30_encoding.md section 1 (D1): a step whose next input is a frame that decodes is that command's meaning, and nothing is added
around it. A frame placed as the next input is the one the step runs. -/
def Obligations.StepRunsTheDecodedCommand : Prop :=
  (∀ (s : State) (f : Frame) (i : Instr), s.host[s.pc]? = some (.frame f) → decode f = .ok i → step s = exec i s) ∧
  (∀ (s : State) (f : Frame) (i : Instr), decode f = .ok i → step (placeFrame s f) = exec i (placeFrame s f))

/-- 70_reset_and_hazards.md section 1 and 10_state.md section 5 (D13): hardware reset. The value of CB is the model's choice (log entry
2), and so is what becomes of the host's list, its position and its record of responses (log entries 3 and 5). -/
def Obligations.ResetInputResetsEveryElement : Prop :=
  ∀ s : State, s.host[s.pc]? = some .reset →
    step s = .next
      { H := { h0 := 0x67452301, h1 := 0xEFCDAB89, h2 := 0x98BADCFE, h3 := 0x10325476, h4 := 0xC3D2E1F0 }
        CNTR := 0, CB := zeroBlock, FILL := 0, STREAMING := false, DIGEST_VALID := false, DISPOSED := false
        DOUT := zeroDigest, host := s.host.drop (s.pc + 1), pc := 0, responses := s.responses, cfg := s.cfg }

/-- 70_reset_and_hazards.md section 1: with nothing more from the host the engine waits. The model's choice of a step that changes
nothing is log entry 4. -/
def Obligations.WithNoInputNothingChanges : Prop :=
  ∀ s : State, s.host.length ≤ s.pc → step s = .next s

/-- 20_memory.md section 4: stepping through the frames of a command list is the left fold of the commands, whatever inputs stand
behind them. -/
def Obligations.SteppingThroughAListIsTheLeftFold : Prop :=
  ∀ (is : List Instr) (rest : List HostInput) (s : State), (∀ i ∈ is, i.wf = true) →
    s.host.drop s.pc = is.map (fun i => HostInput.frame (encode i)) ++ rest →
    Host.Core.run Sys2Proof.core is.length s = runCommands is s

/-- 00_scope.md section 5, 30_encoding.md section 5 (D5, D14, D21): a command that has a step gives one response and moves the
host on by one; RDATA is there exactly on OK from FINAL, COMPUTE or RDDIGEST; parameters and inputs stay. -/
def Obligations.EveryCommandGivesOneResponse : Prop :=
  ∀ (i : Instr) (s t : State), exec i s = .next t →
    t.pc = s.pc + 1 ∧ t.host = s.host ∧ t.cfg = s.cfg ∧
    ∃ r : Response, t.responses = s.responses ++ [r] ∧
      (r.rdata.isSome = true ↔ r.status = .ok ∧ (i = .final ∨ (∃ b, i = .compute b) ∨ i = .rddigest))

/-- 70_reset_and_hazards.md section 3 and 40_digest_engine.md section 4 (D12): every command completes, but for FINAL under
LONG_MSG = refuse at 2^61 bytes or more. -/
def Obligations.EveryAdmittedCommandCompletes : Prop :=
  ∀ (i : Instr) (s : State), i.wf = true →
    (i = .final → s.CNTR.toNat + s.FILL < 2 ^ 61 ∨ s.cfg.longMsg = .wrap) → ∃ t, exec i s = .next t

/-- 60_exceptions.md section 3, R214 (2), and R131 (c) (D3, D12): the only refusal of a command is FINAL's, on a live engine, under
LONG_MSG = refuse, at 2^61 bytes or more. COMPUTE with a buffer that SIZE can give is never refused. -/
def Obligations.OnlyALongMessageIsRefused : Prop :=
  ∀ (i : Instr) (s : State) (r : Refusal), i.wf = true → exec i s = .refused r →
    r = .messageTooLong ∧ s.cfg.longMsg = .refuse ∧ s.DISPOSED = false ∧ i = .final ∧ 2 ^ 61 ≤ s.CNTR.toNat + s.FILL

/-! ## Errors -/

/-- 60_exceptions.md section 1, the error table: which command raises which kind, with its STATUS code. The codes are the spec's own
decision D5 (log entry 12). -/
def Obligations.OnlyTheListedErrorsAreRaised : Prop :=
  ∀ (i : Instr) (s t : State) (r : Response), exec i s = .next t → t.responses = s.responses ++ [r] → r.status ≠ .ok →
    (r.status = .error .useAfterDispose ∧ r.status.code = 0x02 ∧ s.DISPOSED = true) ∨
    (r.status = .error .invalidArgument ∧ r.status.code = 0x01 ∧
      ((∃ b o c, i = .update b o c) ∨ ∃ b, i = .compute b)) ∨
    (r.status = .error .illegalState ∧ r.status.code = 0x03 ∧ i = .rddigest)

/-- 60_exceptions.md section 1 (D11): a command that answers with an error leaves everything as it was but the host's record and
position. -/
def Obligations.ARejectedCommandChangesNothing : Prop :=
  ∀ (i : Instr) (s t : State) (e : ErrorKind) (d : Option Digest), exec i s = .next t →
    t.responses = s.responses ++ [{ status := .error e, rdata := d }] →
    d = none ∧ t = { s with responses := t.responses, pc := s.pc + 1 }

/-- 60_exceptions.md section 1, the InvalidArgument causes: UPDATE and COMPUTE raise it on exactly the listed ones, when nothing of
higher priority does. The spec's own decisions (log entry 12): the priority and that nothing is written (D11), UPDATE's buffer
required even at CNT = 0 (D24), COMPUTE's buffer checked before its INIT (D18). -/
def Obligations.InvalidArgumentOnExactlyTheListedCauses : Prop :=
  ∀ (s : State), s.DISPOSED = false →
    (∀ (buf : Option (List Byte)) (off cnt : Word),
      ((buf = none ∨ off.toInt < 0 ∨ cnt.toInt < 0 ∨ ∃ d, buf = some d ∧ (d.length : Int) < off.toInt + cnt.toInt) →
        exec (.update buf off cnt) s = .next (rejected .invalidArgument s)) ∧
      (¬ (buf = none ∨ off.toInt < 0 ∨ cnt.toInt < 0 ∨ ∃ d, buf = some d ∧ (d.length : Int) < off.toInt + cnt.toInt) →
        ∃ t, exec (.update buf off cnt) s = .next t ∧ t.responses = s.responses ++ [{ status := .ok, rdata := none }])) ∧
    exec (.compute none) s = .next (rejected .invalidArgument s) ∧
    (∀ (d : List Byte) (t : State), exec (.compute (some d)) s = .next t →
      ∃ x, t.responses = s.responses ++ [{ status := .ok, rdata := some x }])

/-- 60_exceptions.md sections 1 and 2, 40_digest_engine.md section 7 (D10, D11): a disposed engine rejects every command with
UseAfterDispose, whatever its operands, and keeps its state. -/
def Obligations.ADisposedEngineRejectsEveryCommand : Prop :=
  ∀ (i : Instr) (s : State), s.DISPOSED = true → exec i s = .next (rejected .useAfterDispose s)

/-- 40_digest_engine.md section 7 (D10): nothing but the reset input changes a disposed engine. -/
def Obligations.OnlyResetLeavesTheDisposedState : Prop :=
  ∀ (s t : State), s.DISPOSED = true → s.host[s.pc]? ≠ some .reset → step s = .next t →
    t = { s with responses := t.responses, pc := t.pc }

/-! ## INIT and DISPOSE -/

/-- R101, R21: INIT runs ResetCore, and CB keeps its bytes. -/
def Obligations.InitRunsResetCore : Prop :=
  ∀ s : State, s.DISPOSED = false →
    ∃ t, exec .init s = .next t ∧
      t.H = { h0 := 0x67452301, h1 := 0xEFCDAB89, h2 := 0x98BADCFE, h3 := 0x10325476, h4 := 0xC3D2E1F0 } ∧
      t.CNTR = 0 ∧ t.FILL = 0 ∧ t.CB = s.CB

/-- 40_digest_engine.md section 2 (D8): INIT's whole effect. -/
def Obligations.InitEffect : Prop :=
  ∀ s : State, s.DISPOSED = false →
    exec .init s = .next
      { s with
        H := iv, CNTR := 0, FILL := 0, STREAMING := false, DIGEST_VALID := false, DOUT := zeroDigest
        responses := s.responses ++ [{ status := .ok, rdata := none }], pc := s.pc + 1 }

/-- 40_digest_engine.md section 2 and 70_reset_and_hazards.md section 1: where no message has begun and no digest is held, as after
reset or another INIT, INIT changes nothing in the engine. -/
def Obligations.InitWithNothingBegunChangesNothing : Prop :=
  ∀ s : State, Inv s → s.DISPOSED = false → s.STREAMING = false → s.DIGEST_VALID = false →
    exec .init s = .next { s with responses := s.responses ++ [{ status := .ok, rdata := none }], pc := s.pc + 1 }

/-- 40_digest_engine.md section 7 (D10): DISPOSE's whole effect. -/
def Obligations.DisposeEffect : Prop :=
  ∀ s : State, s.DISPOSED = false →
    exec .dispose s = .next
      { s with
        H := { h0 := 0, h1 := 0, h2 := 0, h3 := 0, h4 := 0 }, CNTR := 0, CB := zeroBlock, FILL := 0, DOUT := zeroDigest
        STREAMING := false, DIGEST_VALID := false, DISPOSED := true
        responses := s.responses ++ [{ status := .ok, rdata := none }], pc := s.pc + 1 }

/-! ## UPDATE -/

/-- R112 to R115: steps 1 to 4 of an accepted UPDATE, on the message bytes of its range. First clause: the carry stays short.
Second: the carry is completed, and the rest is taken with it empty. Third: the carry is empty from the start. -/
def Obligations.UpdateFollowsItsFourSteps : Prop :=
  ∀ (s : State) (d : List Byte) (off cnt : Word), s.FILL < 64 → s.DISPOSED = false →
    0 ≤ off.toInt → 0 ≤ cnt.toInt → off.toInt + cnt.toInt ≤ d.length →
    ∃ t, exec (.update (some d) off cnt) s = .next t ∧
      let inp := (d.drop off.toInt.toNat).take cnt.toInt.toNat
      (0 < s.FILL → s.FILL + inp.length < 64 →
        t.H = s.H ∧ t.CNTR = s.CNTR ∧ t.FILL = s.FILL + inp.length ∧
        ∀ j (hj : j < 64), t.CB[j] = if s.FILL ≤ j ∧ j < s.FILL + inp.length then inp.getD (j - s.FILL) 0 else s.CB[j]) ∧
      (0 < s.FILL → 64 ≤ s.FILL + inp.length →
        let rest := inp.drop (64 - s.FILL)
        ∃ full : Block, full.toList = s.CB.toList.take s.FILL ++ inp.take (64 - s.FILL) ∧
          t.H = (wholeBlocks rest).foldl compress (compress s.H full) ∧
          t.CNTR = s.CNTR + 64 + BitVec.ofNat 64 (64 * (rest.length / 64)) ∧
          t.FILL = rest.length % 64 ∧
          ∀ j (hj : j < 64),
            t.CB[j] = if j < rest.length % 64 then rest.getD (64 * (rest.length / 64) + j) 0 else full[j]) ∧
      (s.FILL = 0 →
        t.H = (wholeBlocks inp).foldl compress s.H ∧
        t.CNTR = s.CNTR + BitVec.ofNat 64 (64 * (inp.length / 64)) ∧
        t.FILL = inp.length % 64 ∧
        ∀ j (hj : j < 64),
          t.CB[j] = if j < inp.length % 64 then inp.getD (64 * (inp.length / 64) + j) 0 else s.CB[j])

/-- 40_digest_engine.md section 3, the closed form of UPDATE, with STREAMING (D7) and everything else as before. -/
def Obligations.UpdateClosedForm : Prop :=
  ∀ (s : State) (d : List Byte) (off cnt : Word), s.FILL < 64 → s.DISPOSED = false →
    0 ≤ off.toInt → 0 ≤ cnt.toInt → off.toInt + cnt.toInt ≤ d.length →
    let all := s.CB.toList.take s.FILL ++ (d.drop off.toInt.toNat).take cnt.toInt.toNat
    ∃ t, exec (.update (some d) off cnt) s = .next t ∧
      t.CB.toList.take t.FILL = all.drop (64 * (all.length / 64)) ∧
      t = { s with
            H := (wholeBlocks all).foldl compress s.H
            CNTR := s.CNTR + BitVec.ofNat 64 (64 * (all.length / 64))
            CB := t.CB
            FILL := all.length % 64
            STREAMING := (if 0 < cnt.toInt ∨ s.cfg.zlStreaming = true then true else s.STREAMING)
            responses := s.responses ++ [{ status := .ok, rdata := none }]
            pc := s.pc + 1 }

/-- 40_digest_engine.md section 3 (D7): an UPDATE of no bytes changes no state but STREAMING, and that only under
ZL_STREAMING = true. -/
def Obligations.AnUpdateOfNoBytesOnlySetsStreaming : Prop :=
  ∀ (s : State) (d : List Byte) (off : Word), s.FILL < 64 → s.DISPOSED = false → 0 ≤ off.toInt → off.toInt ≤ d.length →
    exec (.update (some d) off 0) s = .next
      { s with
        STREAMING := s.cfg.zlStreaming || s.STREAMING
        responses := s.responses ++ [{ status := .ok, rdata := none }], pc := s.pc + 1 }

/-- 40_digest_engine.md sections 1 and 3: the blocks a byte sequence is cut into are its slices of 64 bytes, in order. -/
def Obligations.WholeBlocksAreTheSlices : Prop :=
  ∀ bs : List Byte, (wholeBlocks bs).length = bs.length / 64 ∧
    ∀ j (hj : j < (wholeBlocks bs).length), ((wholeBlocks bs)[j]).toList = (bs.drop (64 * j)).take 64

/-- 40_digest_engine.md section 3, chunk independence: the state of a message depends on its bytes only, however they are
cut into UPDATEs. -/
def Obligations.ChunkBoundariesDoNotMatter : Prop :=
  ∀ (s : State) (ps qs : List (List Byte)), s.FILL < 64 → s.DISPOSED = false → piecesFit ps → piecesFit qs →
    ps.flatten = qs.flatten →
    ∃ t u, runCommands (feedPieces ps) s = .next t ∧ runCommands (feedPieces qs) s = .next u ∧
      messageState t = messageState u

/-- 10_state.md section 1 (D12 for the modulus): CNTR and FILL count the bytes fed since the core was at its initial
values. -/
def Obligations.ByteCounterAndFillCountTheMessage : Prop :=
  ∀ (s : State) (ps : List (List Byte)), CoreInitial s → s.DISPOSED = false → piecesFit ps →
    ∃ t, runCommands (feedPieces ps) s = .next t ∧ t.FILL < 64 ∧ t.CNTR.toNat % 64 = 0 ∧
      t.CNTR.toNat + t.FILL = ps.flatten.length % 2 ^ 64

/-! ## FINAL -/

/-- R102: the padded tail, with P the number of pad bytes, 0x80 counted. -/
def Obligations.PadTailLayout : Prop :=
  ∀ (tail : List Byte) (total : Nat), tail.length < 64 →
    ∃ P : Nat, 1 ≤ P ∧ P ≤ 64 ∧ (P : Int) = (if (56 : Int) - tail.length ≤ 0 then (56 : Int) - tail.length + 64 else (56 : Int) - tail.length) ∧
      padTail tail total = tail ++ [0x80] ++ List.replicate (P - 1) 0 ++ be64 (BitVec.ofNat 64 (8 * total)) ∧
      (padTail tail total).length = tail.length + P + 8 ∧
      (padTail tail total).length = (if tail.length ≤ 55 then 64 else 128)

/-- R54: the last 8 bytes of the padded tail are the bit length, most significant byte first. -/
def Obligations.LengthFieldIsBigEndian : Prop :=
  ∀ (tail : List Byte) (total : Nat),
    ((padTail tail total).drop ((padTail tail total).length - 8)).foldl (fun a b => 256 * a + b.toNat) 0 =
      8 * total % 2 ^ 64

/-- R123, R124, R126: FINAL pads the buffered bytes to 0x80, zeros and the length, compresses the one or two blocks in order from
the current H, and serialises the result. -/
def Obligations.FinalPadsCompressesAndSerialises : Prop :=
  ∀ s : State, s.FILL < 64 → s.DISPOSED = false → s.CNTR.toNat + s.FILL < 2 ^ 61 →
    ∃ t z, exec .final s = .next t ∧
      let X := s.CB.toList.take s.FILL ++ [0x80] ++ List.replicate z 0 ++
        be64 (BitVec.ofNat 64 (8 * (s.CNTR.toNat + s.FILL)))
      X.length = (if s.FILL ≤ 55 then 64 else 128) ∧ (s.FILL + 1 + z) % 64 = 56 ∧
      (wholeBlocks X).length = (if s.FILL ≤ 55 then 1 else 2) ∧ t.CNTR = 0 ∧
      t.responses = s.responses ++ [{ status := .ok, rdata := some (serialize ((wholeBlocks X).foldl compress s.H)) }]

/-- 40_digest_engine.md section 4: FINAL's whole effect, its refusal and its only error. The refusal is decision D12, the digest kept in
DOUT decision D6, UseAfterDispose with nothing written D10 and D11 (log entry 12). That CB keeps its bytes is the model's
reading (log entry 9, DEDUCED). -/
def Obligations.FinalEffect : Prop :=
  ∀ s : State,
    (s.DISPOSED = true → exec .final s = .next (rejected .useAfterDispose s)) ∧
    (s.DISPOSED = false → s.cfg.longMsg = .refuse → 2 ^ 61 ≤ s.CNTR.toNat + s.FILL →
      exec .final s = .refused .messageTooLong) ∧
    (s.DISPOSED = false → (s.cfg.longMsg = .wrap ∨ s.CNTR.toNat + s.FILL < 2 ^ 61) →
      let X := padTail (s.CB.toList.take s.FILL) (s.CNTR.toNat + s.FILL)
      let digest := serialize ((wholeBlocks X).foldl compress s.H)
      exec .final s = .next
        { s with
          H := iv, CNTR := 0, FILL := 0, STREAMING := false, DIGEST_VALID := true, DOUT := digest
          responses := s.responses ++ [{ status := .ok, rdata := some digest }], pc := s.pc + 1 })

/-- 40_digest_engine.md section 4 (D19): FINAL with nothing fed gives the digest of the empty message. -/
def Obligations.FinalOfNothingIsTheEmptyDigest : Prop :=
  ∀ s : State, CoreInitial s → s.DISPOSED = false →
    ∃ t, exec .final s = .next t ∧
      t.DOUT.toList = [0xda, 0x39, 0xa3, 0xee, 0x5e, 0x6b, 0x4b, 0x0d, 0x32, 0x55, 0xbf, 0xef, 0x95, 0x60, 0x18, 0x90, 0xaf,
        0xd8, 0x07, 0x09] ∧
      t.responses = s.responses ++ [{ status := .ok, rdata := some t.DOUT }]

/-- 40_digest_engine.md section 1: the number of zero bytes in the padding of a whole message is the least one that leaves
room for the length. -/
def Obligations.ZeroPaddingIsTheLeast : Prop :=
  ∀ n p : Nat, (n + 1 + zeroPad n) % 64 = 56 ∧ ((n + 1 + p) % 64 = 56 → zeroPad n ≤ p)

/-- 40_digest_engine.md section 1, the digest as a function of the message: a message fed in any pieces and ended by FINAL
gives its SHA-1 digest. -/
def Obligations.TheDigestIsSha1OfTheMessage : Prop :=
  ∀ (s : State) (ps : List (List Byte)), CoreInitial s → s.DISPOSED = false → piecesFit ps →
    ps.flatten.length < 2 ^ 61 →
    ∃ t, runCommands (feedPieces ps ++ [.final]) s = .next t ∧ t.DOUT = sha1 ps.flatten ∧ t.DIGEST_VALID = true ∧
      t.responses.getLast? = some { status := .ok, rdata := some (sha1 ps.flatten) }

/-- 40_digest_engine.md section 4, reuse: after a FINAL in any state, a new message fed without INIT gives the digest a fresh
engine gives. -/
def Obligations.AnEngineIsReusableAfterFinal : Prop :=
  ∀ (s : State) (ps : List (List Byte)), s.DISPOSED = false →
    (s.cfg.longMsg = .wrap ∨ s.CNTR.toNat + s.FILL < 2 ^ 61) → piecesFit ps → ps.flatten.length < 2 ^ 61 →
    ∃ t u, runCommands (.final :: (feedPieces ps ++ [.final])) s = .next t ∧
      runCommands (feedPieces ps ++ [.final]) State.reset = .next u ∧ t.DOUT = u.DOUT

/-! ## COMPUTE and RDDIGEST -/

/-- 40_digest_engine.md section 5: COMPUTE's checks, and its end state for every buffer SIZE can give. The spec's own decisions (log
entry 12): the absent buffer checked before the internal INIT (D18), the digest kept in DOUT (D6), UseAfterDispose first and
nothing written on an error (D10, D11). CB[0..63] carries no meaning at the end (R27) and is left open. -/
def Obligations.ComputeGivesSha1OfItsBuffer : Prop :=
  ∀ s : State,
    (∀ buf, s.DISPOSED = true → exec (.compute buf) s = .next (rejected .useAfterDispose s)) ∧
    (s.DISPOSED = false → exec (.compute none) s = .next (rejected .invalidArgument s)) ∧
    (∀ d : List Byte, s.DISPOSED = false → d.length < 2 ^ 32 →
      ∃ t, exec (.compute (some d)) s = .next t ∧
        t = { s with
              H := iv, CNTR := 0, CB := t.CB, FILL := 0, STREAMING := false, DIGEST_VALID := true, DOUT := sha1 d
              responses := s.responses ++ [{ status := .ok, rdata := some (sha1 d) }], pc := s.pc + 1 })

/-- 30_encoding.md section 6: HASH leaves the engine as COMPUTE does and answers with the same digest. -/
def Obligations.HashDoesWhatComputeDoes : Prop :=
  ∀ (s : State) (d : List Byte), s.DISPOSED = false → d.length < 2 ^ 31 →
    ∃ t u, runCommands (AsmCommand.hash d).expand s = .next t ∧ exec (.compute (some d)) s = .next u ∧
      u = { t with responses := u.responses, pc := u.pc } ∧ t.responses.getLast? = u.responses.getLast?

/-- 40_digest_engine.md section 6: RDDIGEST answers with DOUT and writes nothing, or is rejected. The spec's own decisions (log entry
12): the digest latched in DOUT with its flag (D6), IllegalState where no digest is held (D9), UseAfterDispose first (D10, D11). -/
def Obligations.RdDigestEffect : Prop :=
  ∀ s : State,
    (s.DISPOSED = true → exec .rddigest s = .next (rejected .useAfterDispose s)) ∧
    (s.DISPOSED = false → (s.STREAMING = true ∨ s.DIGEST_VALID = false) →
      exec .rddigest s = .next (rejected .illegalState s)) ∧
    (s.DISPOSED = false → s.STREAMING = false → s.DIGEST_VALID = true →
      exec .rddigest s = .next
        { s with responses := s.responses ++ [{ status := .ok, rdata := some s.DOUT }], pc := s.pc + 1 })

/-! ## The whole machine -/

/-- 10_state.md section 5, who writes what: what each command leaves alone, whichever way it ends. That FINAL leaves CB is the model's
reading (log entry 9, DEDUCED): the table of R38 gives R W for CB and FILL together. -/
def Obligations.CommandsWriteOnlyTheirElements : Prop :=
  ∀ (i : Instr) (s t : State), exec i s = .next t →
    (i = .rddigest → t = { s with responses := t.responses, pc := t.pc }) ∧
    ((∃ b o c, i = .update b o c) → t.DIGEST_VALID = s.DIGEST_VALID ∧ t.DOUT = s.DOUT) ∧
    ((i = .init ∨ i = .final) → t.CB = s.CB) ∧
    (t.DISPOSED ≠ s.DISPOSED → i = .dispose ∧ t.DISPOSED = true)

/-- 10_state.md sections 1, 3 and 5: the invariant at reset. -/
def Obligations.ResetMeetsTheInvariant : Prop := Inv State.reset

/-- 10_state.md sections 1, 3 and 5: every step keeps the invariant: less than a block buffered, CNTR a multiple of 64, the core
initial where no message has begun, DOUT zero where there is no digest, a disposed engine wiped, the host inside its list. -/
def Obligations.EveryStepKeepsTheInvariant : Prop :=
  ∀ s t : State, Inv s → step s = .next t → Inv t

/-- 10_state.md section 1: bytes of CB from FILL on never show. Two states that differ in nothing else take steps of the same kind
to states that differ in nothing else, with the same responses. -/
def Obligations.StaleCarryBytesNeverShow : Prop :=
  ∀ s t : State, SameButStale s t → SameOutcome SameButStale (step s) (step t)

/-! ## The Block Compressor -/

/-- R151, R152: the schedule's words. -/
def Obligations.ScheduleFollowsItsRecurrence : Prop :=
  ∀ blk : Block, (schedule blk).length = 80 ∧
    (∀ t, t < 16 →
      (schedule blk).getD t 0 =
        blk.toList.getD (4 * t) 0 ++ blk.toList.getD (4 * t + 1) 0 ++ blk.toList.getD (4 * t + 2) 0 ++
          blk.toList.getD (4 * t + 3) 0) ∧
    (∀ t, 16 ≤ t → t < 80 →
      (schedule blk).getD t 0 =
        ((schedule blk).getD (t - 3) 0 ^^^ (schedule blk).getD (t - 8) 0 ^^^ (schedule blk).getD (t - 14) 0 ^^^
          (schedule blk).getD (t - 16) 0).rotateLeft 1)

/-- R154 to R158: one round, with its phase's function and constant. -/
def Obligations.RoundFollowsItsPhase : Prop :=
  ∀ (t : Nat) (w : Word) (v : Working), t < 80 →
    let f : Word := if t / 20 = 0 then (v.b &&& v.c) ||| (~~~v.b &&& v.d)
      else if t / 20 = 2 then (v.b &&& v.c) ||| (v.b &&& v.d) ||| (v.c &&& v.d) else v.b ^^^ v.c ^^^ v.d
    let k : Word := if t / 20 = 0 then 0x5A827999 else if t / 20 = 1 then 0x6ED9EBA1
      else if t / 20 = 2 then 0x8F1BBCDC else 0xCA62C1D6
    roundStep t w v =
      { a := v.e + v.a.rotateLeft 5 + f + k + w, b := v.a, c := v.b.rotateLeft 30, d := v.c, e := v.d }

/-- 41_block_compressor.md, the whole Compressor: 80 rounds from H, one schedule word each, then the feed-forward. The start of the
working variables is the spec's general knowledge (G2, log entry 11). -/
def Obligations.CompressIsEightyRoundsAndFeedForward : Prop :=
  ∀ (H : DigestState) (blk : Block), ∃ v : Nat → Working,
    v 0 = { a := H.h0, b := H.h1, c := H.h2, d := H.h3, e := H.h4 } ∧
    (∀ t, t < 80 → v (t + 1) = roundStep t ((schedule blk).getD t 0) (v t)) ∧
    compress H blk =
      { h0 := H.h0 + (v 80).a, h1 := H.h1 + (v 80).b, h2 := H.h2 + (v 80).c, h3 := H.h3 + (v 80).d, h4 := H.h4 + (v 80).e }

/-- 41_block_compressor.md, purity: the schedule may be produced in a rolling window of 16 words. -/
def Obligations.ARollingScheduleIsTheSameCompressor : Prop :=
  ∀ (H : DigestState) (blk : Block), compressRolling H blk = compress H blk

/-- 41_block_compressor.md, derived from R11: the choose function's terms never meet, and the majority function is the majority of
its bits. -/
def Obligations.MixingFunctionsBitByBit : Prop :=
  ∀ b c d : Word,
    fCh b c d = (b &&& c) ^^^ (~~~b &&& d) ∧ fCh b c d = (b &&& c) + (~~~b &&& d) ∧
    ∀ j, j < 32 → (fMaj b c d).getLsbD j =
      decide (2 ≤ (b.getLsbD j).toNat + (c.getLsbD j).toNat + (d.getLsbD j).toNat)

/-- R55, R103: the digest is the five words in order, each most significant byte first, and reading it back gives them. -/
def Obligations.DigestIsBigEndian : Prop :=
  ∀ H : DigestState,
    (serialize H).toList = [H.h0, H.h1, H.h2, H.h3, H.h4].flatMap (fun w =>
      [BitVec.ofNat 8 (w.toNat / 2 ^ 24), BitVec.ofNat 8 (w.toNat / 2 ^ 16), BitVec.ofNat 8 (w.toNat / 2 ^ 8),
        BitVec.ofNat 8 w.toNat]) ∧
    wordsOf (serialize H).toList = [H.h0, H.h1, H.h2, H.h3, H.h4]
end

