-- ==== Sys2Proof/Laws/Blocks.lean ====
section
/-! SUPPORT. Cutting byte sequences into blocks, and writing bytes into the CarryBuffer. -/

namespace Sys2Proof.Machine

/-! ## Whole blocks and the tail -/

@[simp] theorem firstBlock_toList (bs : List Byte) (h : 64 ≤ bs.length) : (firstBlock bs h).toList = bs.take 64 := rfl

/-- A block is determined by its bytes. -/
theorem block_ext {x y : Block} (h : x.toList = y.toList) : x = y := Vector.toList_inj.mp h

theorem blocksOf_length (n : Nat) (bs : List Byte) (h : 64 * n ≤ bs.length) : (blocksOf n bs).length = n := by
  induction n generalizing bs with
  | zero => rfl
  | succ n ih =>
    have h64 : 64 ≤ bs.length := by omega
    simp only [blocksOf, h64, dite_true, List.length_cons]
    rw [ih]
    simp only [List.length_drop]
    omega

/-- A byte sequence has as many whole blocks as its length has multiples of 64. -/
@[simp] theorem wholeBlocks_length (bs : List Byte) : (wholeBlocks bs).length = bs.length / 64 :=
  blocksOf_length _ _ (by omega)

@[simp] theorem tailBytes_length (bs : List Byte) : (tailBytes bs).length = bs.length % 64 := by
  simp only [tailBytes, List.length_drop]; omega

theorem wholeBlocks_of_lt {bs : List Byte} (h : bs.length < 64) : wholeBlocks bs = [] := by
  simp [wholeBlocks, Nat.div_eq_of_lt h, blocksOf]

theorem tailBytes_of_lt {bs : List Byte} (h : bs.length < 64) : tailBytes bs = bs := by
  simp [tailBytes, Nat.div_eq_of_lt h]

/-- The first block of a long enough sequence, then the blocks of the rest. -/
theorem wholeBlocks_of_le {bs : List Byte} (h : 64 ≤ bs.length) :
    wholeBlocks bs = firstBlock bs h :: wholeBlocks (bs.drop 64) := by
  have hd : bs.length / 64 = (bs.drop 64).length / 64 + 1 := by simp only [List.length_drop]; omega
  simp only [wholeBlocks, hd, blocksOf, h, dite_true]

theorem tailBytes_of_le {bs : List Byte} (h : 64 ≤ bs.length) : tailBytes bs = tailBytes (bs.drop 64) := by
  simp only [tailBytes, List.drop_drop, List.length_drop]
  congr 1
  omega

/-- A block in front of a byte sequence is its first whole block. -/
theorem wholeBlocks_block_append (b : Block) (bs : List Byte) : wholeBlocks (b.toList ++ bs) = b :: wholeBlocks bs := by
  have hb : b.toList.length = 64 := b.size_toArray
  have h : 64 ≤ (b.toList ++ bs).length := by simp
  rw [wholeBlocks_of_le h, List.drop_left' hb]
  congr 1
  exact block_ext (by rw [firstBlock_toList, List.take_left' hb])

theorem tailBytes_block_append (b : Block) (bs : List Byte) : tailBytes (b.toList ++ bs) = tailBytes bs := by
  have hb : b.toList.length = 64 := b.size_toArray
  have h : 64 ≤ (b.toList ++ bs).length := by simp
  rw [tailBytes_of_le h, List.drop_left' hb]

/-- Cutting a sequence cuts what stands before its tail, and the tail goes on into what follows. -/
theorem wholeBlocks_append (xs ys : List Byte) :
    wholeBlocks (xs ++ ys) = wholeBlocks xs ++ wholeBlocks (tailBytes xs ++ ys) := by
  induction hn : xs.length / 64 generalizing xs with
  | zero =>
    have h : xs.length < 64 := by omega
    simp [wholeBlocks_of_lt h, tailBytes_of_lt h]
  | succ n ih =>
    have h : 64 ≤ xs.length := by omega
    have happ : 64 ≤ (xs ++ ys).length := by simp; omega
    rw [wholeBlocks_of_le happ, wholeBlocks_of_le h, tailBytes_of_le h, List.drop_append_of_le_length h,
      ih (xs.drop 64) (by simp only [List.length_drop]; omega), List.cons_append]
    congr 1
    exact block_ext (by simp [List.take_append_of_le_length h])

theorem tailBytes_append (xs ys : List Byte) : tailBytes (xs ++ ys) = tailBytes (tailBytes xs ++ ys) := by
  induction hn : xs.length / 64 generalizing xs with
  | zero =>
    have h : xs.length < 64 := by omega
    rw [tailBytes_of_lt h]
  | succ n ih =>
    have h : 64 ≤ xs.length := by omega
    have happ : 64 ≤ (xs ++ ys).length := by simp; omega
    rw [tailBytes_of_le happ, tailBytes_of_le h, List.drop_append_of_le_length h,
      ih (xs.drop 64) (by simp only [List.length_drop]; omega)]

@[simp] theorem compressAll_nil (H : DigestState) : compressAll H [] = H := rfl

@[simp] theorem compressAll_cons (H : DigestState) (b : Block) (bs : List Block) :
    compressAll H (b :: bs) = compressAll (compress H b) bs := rfl

theorem compressAll_append (H : DigestState) (xs ys : List Block) :
    compressAll H (xs ++ ys) = compressAll (compressAll H xs) ys := List.foldl_append

/-! ## Writing into the CarryBuffer -/

/-- What `writeBytes` leaves at each position: the written byte inside the written range, the old one outside. -/
theorem writeBytes_getElem (cb : Block) (pos : Nat) (bs : List Byte) (j : Nat) (hj : j < 64) :
    (writeBytes cb pos bs)[j] = if h : pos ≤ j ∧ j < pos + bs.length then bs[j - pos]'(by omega) else cb[j] := by
  induction bs generalizing cb pos with
  | nil => simp only [writeBytes, List.length_nil]; rw [dif_neg (by omega)]
  | cons b bs ih =>
    rw [writeBytes, ih]
    by_cases h0 : pos = j
    · subst h0
      rw [dif_neg (by omega), dif_pos (by simp)]
      simp
    · by_cases h1 : pos + 1 ≤ j ∧ j < pos + 1 + bs.length
      · rw [dif_pos h1, dif_pos (by simp only [List.length_cons]; omega)]
        have hs : j - pos = j - (pos + 1) + 1 := by omega
        simp only [hs, List.getElem_cons_succ]
      · rw [dif_neg h1, dif_neg (by simp only [List.length_cons]; omega)]
        exact Vector.getElem_setIfInBounds_ne hj h0

@[simp] theorem writeBytes_nil (cb : Block) (pos : Nat) : writeBytes cb pos [] = cb := rfl

/-- Bytes written behind the first `pos` bytes stand behind them. -/
theorem writeBytes_take (cb : Block) (pos : Nat) (bs : List Byte) (h : pos + bs.length ≤ 64) :
    (writeBytes cb pos bs).toList.take (pos + bs.length) = cb.toList.take pos ++ bs := by
  apply List.ext_getElem
  · simp only [List.length_take, Vector.length_toList, List.length_append]; omega
  · intro j h1 h2
    have hj : j < 64 := by simp only [List.length_take, Vector.length_toList] at h1; omega
    rw [List.getElem_take, Vector.getElem_toList, writeBytes_getElem _ _ _ _ hj, List.getElem_append]
    simp only [List.length_take, Vector.length_toList]
    by_cases hp : j < pos
    · rw [dif_neg (by omega), dif_pos (by omega)]; simp
    · rw [dif_pos ⟨by omega, by simp at h1; omega⟩, dif_neg (by omega)]
      congr 1
      omega

end Sys2Proof.Machine
end

