-- ==== Sys2Proof/Laws/State.lean ====
section
/-! SUPPORT. What each update of the state does to each field: one lemma per field per update, all true by definition. -/

namespace Sys2Proof.Machine

/-! ### A completed command -/

@[simp] theorem respond_H (r : Response) (s : State) : (respond r s).H = s.H := rfl
@[simp] theorem respond_CNTR (r : Response) (s : State) : (respond r s).CNTR = s.CNTR := rfl
@[simp] theorem respond_CB (r : Response) (s : State) : (respond r s).CB = s.CB := rfl
@[simp] theorem respond_FILL (r : Response) (s : State) : (respond r s).FILL = s.FILL := rfl
@[simp] theorem respond_STREAMING (r : Response) (s : State) : (respond r s).STREAMING = s.STREAMING := rfl
@[simp] theorem respond_DIGEST_VALID (r : Response) (s : State) : (respond r s).DIGEST_VALID = s.DIGEST_VALID := rfl
@[simp] theorem respond_DISPOSED (r : Response) (s : State) : (respond r s).DISPOSED = s.DISPOSED := rfl
@[simp] theorem respond_DOUT (r : Response) (s : State) : (respond r s).DOUT = s.DOUT := rfl
@[simp] theorem respond_host (r : Response) (s : State) : (respond r s).host = s.host := rfl
@[simp] theorem respond_pc (r : Response) (s : State) : (respond r s).pc = s.pc + 1 := rfl
@[simp] theorem respond_responses (r : Response) (s : State) : (respond r s).responses = s.responses ++ [r] := rfl
@[simp] theorem respond_cfg (r : Response) (s : State) : (respond r s).cfg = s.cfg := rfl

/-! ### An accepted command -/

@[simp] theorem accepted_H (d : Option Digest) (s : State) : (accepted d s).H = s.H := rfl
@[simp] theorem accepted_CNTR (d : Option Digest) (s : State) : (accepted d s).CNTR = s.CNTR := rfl
@[simp] theorem accepted_CB (d : Option Digest) (s : State) : (accepted d s).CB = s.CB := rfl
@[simp] theorem accepted_FILL (d : Option Digest) (s : State) : (accepted d s).FILL = s.FILL := rfl
@[simp] theorem accepted_STREAMING (d : Option Digest) (s : State) : (accepted d s).STREAMING = s.STREAMING := rfl
@[simp] theorem accepted_DIGEST_VALID (d : Option Digest) (s : State) : (accepted d s).DIGEST_VALID = s.DIGEST_VALID := rfl
@[simp] theorem accepted_DISPOSED (d : Option Digest) (s : State) : (accepted d s).DISPOSED = s.DISPOSED := rfl
@[simp] theorem accepted_DOUT (d : Option Digest) (s : State) : (accepted d s).DOUT = s.DOUT := rfl
@[simp] theorem accepted_host (d : Option Digest) (s : State) : (accepted d s).host = s.host := rfl
@[simp] theorem accepted_pc (d : Option Digest) (s : State) : (accepted d s).pc = s.pc + 1 := rfl
@[simp] theorem accepted_responses (d : Option Digest) (s : State) : (accepted d s).responses = s.responses ++ [{ status := .ok, rdata := d }] := rfl
@[simp] theorem accepted_cfg (d : Option Digest) (s : State) : (accepted d s).cfg = s.cfg := rfl

/-! ### A rejected command -/

@[simp] theorem rejected_H (e : ErrorKind) (s : State) : (rejected e s).H = s.H := rfl
@[simp] theorem rejected_CNTR (e : ErrorKind) (s : State) : (rejected e s).CNTR = s.CNTR := rfl
@[simp] theorem rejected_CB (e : ErrorKind) (s : State) : (rejected e s).CB = s.CB := rfl
@[simp] theorem rejected_FILL (e : ErrorKind) (s : State) : (rejected e s).FILL = s.FILL := rfl
@[simp] theorem rejected_STREAMING (e : ErrorKind) (s : State) : (rejected e s).STREAMING = s.STREAMING := rfl
@[simp] theorem rejected_DIGEST_VALID (e : ErrorKind) (s : State) : (rejected e s).DIGEST_VALID = s.DIGEST_VALID := rfl
@[simp] theorem rejected_DISPOSED (e : ErrorKind) (s : State) : (rejected e s).DISPOSED = s.DISPOSED := rfl
@[simp] theorem rejected_DOUT (e : ErrorKind) (s : State) : (rejected e s).DOUT = s.DOUT := rfl
@[simp] theorem rejected_host (e : ErrorKind) (s : State) : (rejected e s).host = s.host := rfl
@[simp] theorem rejected_pc (e : ErrorKind) (s : State) : (rejected e s).pc = s.pc + 1 := rfl
@[simp] theorem rejected_responses (e : ErrorKind) (s : State) : (rejected e s).responses = s.responses ++ [{ status := .error e, rdata := none }] := rfl
@[simp] theorem rejected_cfg (e : ErrorKind) (s : State) : (rejected e s).cfg = s.cfg := rfl

/-! ### Appending to the CarryBuffer -/

@[simp] theorem appendCarry_H (bs : List Byte) (s : State) : (appendCarry s bs).H = s.H := rfl
@[simp] theorem appendCarry_CNTR (bs : List Byte) (s : State) : (appendCarry s bs).CNTR = s.CNTR := rfl
@[simp] theorem appendCarry_CB (bs : List Byte) (s : State) : (appendCarry s bs).CB = writeBytes s.CB s.FILL bs := rfl
@[simp] theorem appendCarry_FILL (bs : List Byte) (s : State) : (appendCarry s bs).FILL = s.FILL + bs.length := rfl
@[simp] theorem appendCarry_STREAMING (bs : List Byte) (s : State) : (appendCarry s bs).STREAMING = s.STREAMING := rfl
@[simp] theorem appendCarry_DIGEST_VALID (bs : List Byte) (s : State) : (appendCarry s bs).DIGEST_VALID = s.DIGEST_VALID := rfl
@[simp] theorem appendCarry_DISPOSED (bs : List Byte) (s : State) : (appendCarry s bs).DISPOSED = s.DISPOSED := rfl
@[simp] theorem appendCarry_DOUT (bs : List Byte) (s : State) : (appendCarry s bs).DOUT = s.DOUT := rfl
@[simp] theorem appendCarry_host (bs : List Byte) (s : State) : (appendCarry s bs).host = s.host := rfl
@[simp] theorem appendCarry_pc (bs : List Byte) (s : State) : (appendCarry s bs).pc = s.pc := rfl
@[simp] theorem appendCarry_responses (bs : List Byte) (s : State) : (appendCarry s bs).responses = s.responses := rfl
@[simp] theorem appendCarry_cfg (bs : List Byte) (s : State) : (appendCarry s bs).cfg = s.cfg := rfl

/-! ### Storing the trailing bytes -/

@[simp] theorem storeTail_H (bs : List Byte) (s : State) : (storeTail s bs).H = s.H := rfl
@[simp] theorem storeTail_CNTR (bs : List Byte) (s : State) : (storeTail s bs).CNTR = s.CNTR := rfl
@[simp] theorem storeTail_CB (bs : List Byte) (s : State) : (storeTail s bs).CB = writeBytes s.CB 0 bs := rfl
@[simp] theorem storeTail_FILL (bs : List Byte) (s : State) : (storeTail s bs).FILL = bs.length := rfl
@[simp] theorem storeTail_STREAMING (bs : List Byte) (s : State) : (storeTail s bs).STREAMING = s.STREAMING := rfl
@[simp] theorem storeTail_DIGEST_VALID (bs : List Byte) (s : State) : (storeTail s bs).DIGEST_VALID = s.DIGEST_VALID := rfl
@[simp] theorem storeTail_DISPOSED (bs : List Byte) (s : State) : (storeTail s bs).DISPOSED = s.DISPOSED := rfl
@[simp] theorem storeTail_DOUT (bs : List Byte) (s : State) : (storeTail s bs).DOUT = s.DOUT := rfl
@[simp] theorem storeTail_host (bs : List Byte) (s : State) : (storeTail s bs).host = s.host := rfl
@[simp] theorem storeTail_pc (bs : List Byte) (s : State) : (storeTail s bs).pc = s.pc := rfl
@[simp] theorem storeTail_responses (bs : List Byte) (s : State) : (storeTail s bs).responses = s.responses := rfl
@[simp] theorem storeTail_cfg (bs : List Byte) (s : State) : (storeTail s bs).cfg = s.cfg := rfl

/-! ### Compressing message blocks -/

@[simp] theorem compressMessage_H (blks : List Block) (s : State) : (compressMessage s blks).H = compressAll s.H blks := rfl
@[simp] theorem compressMessage_CNTR (blks : List Block) (s : State) : (compressMessage s blks).CNTR = s.CNTR + BitVec.ofNat 64 (64 * blks.length) := rfl
@[simp] theorem compressMessage_CB (blks : List Block) (s : State) : (compressMessage s blks).CB = s.CB := rfl
@[simp] theorem compressMessage_FILL (blks : List Block) (s : State) : (compressMessage s blks).FILL = s.FILL := rfl
@[simp] theorem compressMessage_STREAMING (blks : List Block) (s : State) : (compressMessage s blks).STREAMING = s.STREAMING := rfl
@[simp] theorem compressMessage_DIGEST_VALID (blks : List Block) (s : State) : (compressMessage s blks).DIGEST_VALID = s.DIGEST_VALID := rfl
@[simp] theorem compressMessage_DISPOSED (blks : List Block) (s : State) : (compressMessage s blks).DISPOSED = s.DISPOSED := rfl
@[simp] theorem compressMessage_DOUT (blks : List Block) (s : State) : (compressMessage s blks).DOUT = s.DOUT := rfl
@[simp] theorem compressMessage_host (blks : List Block) (s : State) : (compressMessage s blks).host = s.host := rfl
@[simp] theorem compressMessage_pc (blks : List Block) (s : State) : (compressMessage s blks).pc = s.pc := rfl
@[simp] theorem compressMessage_responses (blks : List Block) (s : State) : (compressMessage s blks).responses = s.responses := rfl
@[simp] theorem compressMessage_cfg (blks : List Block) (s : State) : (compressMessage s blks).cfg = s.cfg := rfl

/-! ### ResetCore -/

@[simp] theorem resetCore_H (s : State) : (resetCore s).H = iv := rfl
@[simp] theorem resetCore_CNTR (s : State) : (resetCore s).CNTR = 0 := rfl
@[simp] theorem resetCore_CB (s : State) : (resetCore s).CB = s.CB := rfl
@[simp] theorem resetCore_FILL (s : State) : (resetCore s).FILL = 0 := rfl
@[simp] theorem resetCore_STREAMING (s : State) : (resetCore s).STREAMING = s.STREAMING := rfl
@[simp] theorem resetCore_DIGEST_VALID (s : State) : (resetCore s).DIGEST_VALID = s.DIGEST_VALID := rfl
@[simp] theorem resetCore_DISPOSED (s : State) : (resetCore s).DISPOSED = s.DISPOSED := rfl
@[simp] theorem resetCore_DOUT (s : State) : (resetCore s).DOUT = s.DOUT := rfl
@[simp] theorem resetCore_host (s : State) : (resetCore s).host = s.host := rfl
@[simp] theorem resetCore_pc (s : State) : (resetCore s).pc = s.pc := rfl
@[simp] theorem resetCore_responses (s : State) : (resetCore s).responses = s.responses := rfl
@[simp] theorem resetCore_cfg (s : State) : (resetCore s).cfg = s.cfg := rfl

/-! ### The body of INIT -/

@[simp] theorem initBody_H (s : State) : (initBody s).H = iv := rfl
@[simp] theorem initBody_CNTR (s : State) : (initBody s).CNTR = 0 := rfl
@[simp] theorem initBody_CB (s : State) : (initBody s).CB = s.CB := rfl
@[simp] theorem initBody_FILL (s : State) : (initBody s).FILL = 0 := rfl
@[simp] theorem initBody_STREAMING (s : State) : (initBody s).STREAMING = false := rfl
@[simp] theorem initBody_DIGEST_VALID (s : State) : (initBody s).DIGEST_VALID = false := rfl
@[simp] theorem initBody_DISPOSED (s : State) : (initBody s).DISPOSED = s.DISPOSED := rfl
@[simp] theorem initBody_DOUT (s : State) : (initBody s).DOUT = zeroDigest := rfl
@[simp] theorem initBody_host (s : State) : (initBody s).host = s.host := rfl
@[simp] theorem initBody_pc (s : State) : (initBody s).pc = s.pc := rfl
@[simp] theorem initBody_responses (s : State) : (initBody s).responses = s.responses := rfl
@[simp] theorem initBody_cfg (s : State) : (initBody s).cfg = s.cfg := rfl

/-! ### The body of DISPOSE -/

@[simp] theorem disposeBody_H (s : State) : (disposeBody s).H = zeroState := rfl
@[simp] theorem disposeBody_CNTR (s : State) : (disposeBody s).CNTR = 0 := rfl
@[simp] theorem disposeBody_CB (s : State) : (disposeBody s).CB = zeroBlock := rfl
@[simp] theorem disposeBody_FILL (s : State) : (disposeBody s).FILL = 0 := rfl
@[simp] theorem disposeBody_STREAMING (s : State) : (disposeBody s).STREAMING = false := rfl
@[simp] theorem disposeBody_DIGEST_VALID (s : State) : (disposeBody s).DIGEST_VALID = false := rfl
@[simp] theorem disposeBody_DISPOSED (s : State) : (disposeBody s).DISPOSED = true := rfl
@[simp] theorem disposeBody_DOUT (s : State) : (disposeBody s).DOUT = zeroDigest := rfl
@[simp] theorem disposeBody_host (s : State) : (disposeBody s).host = s.host := rfl
@[simp] theorem disposeBody_pc (s : State) : (disposeBody s).pc = s.pc := rfl
@[simp] theorem disposeBody_responses (s : State) : (disposeBody s).responses = s.responses := rfl
@[simp] theorem disposeBody_cfg (s : State) : (disposeBody s).cfg = s.cfg := rfl

/-! ### The body of FINAL -/

@[simp] theorem finalBody_H (s : State) : (finalBody s).H = iv := rfl
@[simp] theorem finalBody_CNTR (s : State) : (finalBody s).CNTR = 0 := rfl
@[simp] theorem finalBody_CB (s : State) : (finalBody s).CB = s.CB := rfl
@[simp] theorem finalBody_FILL (s : State) : (finalBody s).FILL = 0 := rfl
@[simp] theorem finalBody_STREAMING (s : State) : (finalBody s).STREAMING = false := rfl
@[simp] theorem finalBody_DIGEST_VALID (s : State) : (finalBody s).DIGEST_VALID = true := rfl
@[simp] theorem finalBody_DISPOSED (s : State) : (finalBody s).DISPOSED = s.DISPOSED := rfl
@[simp] theorem finalBody_DOUT (s : State) : (finalBody s).DOUT = finalDigest s := rfl
@[simp] theorem finalBody_host (s : State) : (finalBody s).host = s.host := rfl
@[simp] theorem finalBody_pc (s : State) : (finalBody s).pc = s.pc := rfl
@[simp] theorem finalBody_responses (s : State) : (finalBody s).responses = s.responses := rfl
@[simp] theorem finalBody_cfg (s : State) : (finalBody s).cfg = s.cfg := rfl

/-! ### Hardware reset -/

@[simp] theorem hardwareReset_H (s : State) : (hardwareReset s).H = iv := rfl
@[simp] theorem hardwareReset_CNTR (s : State) : (hardwareReset s).CNTR = 0 := rfl
@[simp] theorem hardwareReset_CB (s : State) : (hardwareReset s).CB = zeroBlock := rfl
@[simp] theorem hardwareReset_FILL (s : State) : (hardwareReset s).FILL = 0 := rfl
@[simp] theorem hardwareReset_STREAMING (s : State) : (hardwareReset s).STREAMING = false := rfl
@[simp] theorem hardwareReset_DIGEST_VALID (s : State) : (hardwareReset s).DIGEST_VALID = false := rfl
@[simp] theorem hardwareReset_DISPOSED (s : State) : (hardwareReset s).DISPOSED = false := rfl
@[simp] theorem hardwareReset_DOUT (s : State) : (hardwareReset s).DOUT = zeroDigest := rfl
@[simp] theorem hardwareReset_host (s : State) : (hardwareReset s).host = s.host.drop (s.pc + 1) := rfl
@[simp] theorem hardwareReset_pc (s : State) : (hardwareReset s).pc = 0 := rfl
@[simp] theorem hardwareReset_responses (s : State) : (hardwareReset s).responses = s.responses := rfl
@[simp] theorem hardwareReset_cfg (s : State) : (hardwareReset s).cfg = s.cfg := rfl

/-! ### Placing a frame -/

@[simp] theorem placeFrame_H (f : Frame) (s : State) : (placeFrame s f).H = s.H := rfl
@[simp] theorem placeFrame_CNTR (f : Frame) (s : State) : (placeFrame s f).CNTR = s.CNTR := rfl
@[simp] theorem placeFrame_CB (f : Frame) (s : State) : (placeFrame s f).CB = s.CB := rfl
@[simp] theorem placeFrame_FILL (f : Frame) (s : State) : (placeFrame s f).FILL = s.FILL := rfl
@[simp] theorem placeFrame_STREAMING (f : Frame) (s : State) : (placeFrame s f).STREAMING = s.STREAMING := rfl
@[simp] theorem placeFrame_DIGEST_VALID (f : Frame) (s : State) : (placeFrame s f).DIGEST_VALID = s.DIGEST_VALID := rfl
@[simp] theorem placeFrame_DISPOSED (f : Frame) (s : State) : (placeFrame s f).DISPOSED = s.DISPOSED := rfl
@[simp] theorem placeFrame_DOUT (f : Frame) (s : State) : (placeFrame s f).DOUT = s.DOUT := rfl
@[simp] theorem placeFrame_host (f : Frame) (s : State) : (placeFrame s f).host = (s.host ++ List.replicate (s.pc + 1 - s.host.length) (HostInput.frame f)).set s.pc (HostInput.frame f) := rfl
@[simp] theorem placeFrame_pc (f : Frame) (s : State) : (placeFrame s f).pc = s.pc := rfl
@[simp] theorem placeFrame_responses (f : Frame) (s : State) : (placeFrame s f).responses = s.responses := rfl
@[simp] theorem placeFrame_cfg (f : Frame) (s : State) : (placeFrame s f).cfg = s.cfg := rfl

end Sys2Proof.Machine
end

