-- ==== Sys2Proof/Laws/Absorb.lean ====
section
/-! SUPPORT. What absorbing message bytes does: the closed form of UPDATE's steps 1 to 4 (40_digest_engine.md R112 to R117). -/

namespace Sys2Proof.Machine

/-! ## With the CarryBuffer empty -/

@[simp] theorem absorbAligned_H (s : State) (inp : List Byte) :
    (absorbAligned s inp).H = compressAll s.H (wholeBlocks inp) := rfl

@[simp] theorem absorbAligned_CNTR (s : State) (inp : List Byte) :
    (absorbAligned s inp).CNTR = s.CNTR + BitVec.ofNat 64 (64 * (inp.length / 64)) := by
  simp [absorbAligned]

@[simp] theorem absorbAligned_CB (s : State) (inp : List Byte) :
    (absorbAligned s inp).CB = writeBytes s.CB 0 (tailBytes inp) := rfl

@[simp] theorem absorbAligned_FILL (s : State) (inp : List Byte) : (absorbAligned s inp).FILL = inp.length % 64 := by
  simp [absorbAligned]

theorem absorbAligned_buffered (s : State) (inp : List Byte) : buffered (absorbAligned s inp) = tailBytes inp := by
  have hlt : inp.length % 64 < 64 := Nat.mod_lt _ (by omega)
  have h := writeBytes_take s.CB 0 (tailBytes inp) (by simp; omega)
  simp only [Nat.zero_add, tailBytes_length, List.take_zero, List.nil_append] at h
  rw [buffered, absorbAligned_CB, absorbAligned_FILL, h]

theorem absorbAligned_eq (s : State) (inp : List Byte) :
    absorbAligned s inp =
      { s with
        H := compressAll s.H (wholeBlocks inp)
        CNTR := s.CNTR + BitVec.ofNat 64 (64 * (inp.length / 64))
        CB := writeBytes s.CB 0 (tailBytes inp)
        FILL := inp.length % 64 } := by
  simp [absorbAligned, storeTail, compressMessage]

/-! ## The cases of `absorb` -/

theorem absorb_of_empty {s : State} (h : s.FILL = 0) (inp : List Byte) : absorb s inp = absorbAligned s inp := by
  simp [absorb, h]

/-- Too few bytes to fill the CarryBuffer: they are appended and nothing is compressed (R112). -/
theorem absorb_of_short {s : State} {inp : List Byte} (h0 : 0 < s.FILL) (h : s.FILL + inp.length < 64) :
    absorb s inp = appendCarry s inp := by
  have hk : min inp.length (64 - s.FILL) = inp.length := by omega
  simp [absorb, h0, hk, h]

/-- Enough bytes to fill the CarryBuffer: it is compressed as one block, and the rest is absorbed with the buffer empty
(R112, R113). -/
theorem absorb_of_full {s : State} {inp : List Byte} (h0 : 0 < s.FILL) (hf : s.FILL ≤ 64)
    (h : 64 ≤ s.FILL + inp.length) :
    absorb s inp =
      absorbAligned
        { compressMessage (appendCarry s (inp.take (64 - s.FILL))) [writeBytes s.CB s.FILL (inp.take (64 - s.FILL))] with
          FILL := 0 }
        (inp.drop (64 - s.FILL)) := by
  have hk : min inp.length (64 - s.FILL) = 64 - s.FILL := by omega
  have hn : ¬ s.FILL + min (64 - s.FILL) inp.length < 64 := by omega
  simp [absorb, h0, hk, hn]

/-! ## What `absorb` leaves alone -/

/-- Absorbing changes H, CNTR, CB and FILL only. -/
theorem absorb_frame (s : State) (inp : List Byte) :
    absorb s inp =
      { s with H := (absorb s inp).H, CNTR := (absorb s inp).CNTR, CB := (absorb s inp).CB, FILL := (absorb s inp).FILL } := by
  unfold absorb
  simp only [absorbAligned]
  split
  · split <;> rfl
  · rfl

@[simp] theorem absorb_STREAMING (s : State) (inp : List Byte) : (absorb s inp).STREAMING = s.STREAMING := by
  rw [absorb_frame]
@[simp] theorem absorb_DIGEST_VALID (s : State) (inp : List Byte) : (absorb s inp).DIGEST_VALID = s.DIGEST_VALID := by
  rw [absorb_frame]
@[simp] theorem absorb_DISPOSED (s : State) (inp : List Byte) : (absorb s inp).DISPOSED = s.DISPOSED := by
  rw [absorb_frame]
@[simp] theorem absorb_DOUT (s : State) (inp : List Byte) : (absorb s inp).DOUT = s.DOUT := by
  rw [absorb_frame]
@[simp] theorem absorb_host (s : State) (inp : List Byte) : (absorb s inp).host = s.host := by
  rw [absorb_frame]
@[simp] theorem absorb_pc (s : State) (inp : List Byte) : (absorb s inp).pc = s.pc := by
  rw [absorb_frame]
@[simp] theorem absorb_responses (s : State) (inp : List Byte) : (absorb s inp).responses = s.responses := by
  rw [absorb_frame]
@[simp] theorem absorb_cfg (s : State) (inp : List Byte) : (absorb s inp).cfg = s.cfg := by
  rw [absorb_frame]

/-! ## The closed form (R117 (a)) -/

theorem buffered_length {s : State} (hf : s.FILL ≤ 64) : (buffered s).length = s.FILL := by
  simp [buffered, hf]

/-- The CarryBuffer filled up by the first input bytes is the first block of the buffered bytes and the input. -/
theorem carry_completed {s : State} {inp : List Byte} (hf : s.FILL ≤ 64) (h : 64 ≤ s.FILL + inp.length) :
    buffered s ++ inp =
      (writeBytes s.CB s.FILL (inp.take (64 - s.FILL))).toList ++ inp.drop (64 - s.FILL) := by
  have hl : (inp.take (64 - s.FILL)).length = 64 - s.FILL := by simp; omega
  have hw := writeBytes_take s.CB s.FILL (inp.take (64 - s.FILL)) (by omega)
  have h64 : s.FILL + (inp.take (64 - s.FILL)).length = 64 := by omega
  rw [h64, List.take_of_length_le (by simp)] at hw
  rw [hw, List.append_assoc, List.take_append_drop, buffered]

/-- Absorbing is compressing the whole blocks of the buffered bytes and the input, and keeping the tail. -/
theorem absorb_closed_form (s : State) (inp : List Byte) (hf : s.FILL ≤ 64) :
    (absorb s inp).H = compressAll s.H (wholeBlocks (buffered s ++ inp)) ∧
    (absorb s inp).CNTR = s.CNTR + BitVec.ofNat 64 (64 * ((s.FILL + inp.length) / 64)) ∧
    (absorb s inp).FILL = (s.FILL + inp.length) % 64 ∧
    buffered (absorb s inp) = tailBytes (buffered s ++ inp) := by
  rcases Nat.eq_zero_or_pos s.FILL with h0 | h0
  · have hb : buffered s = [] := by simp [buffered, h0]
    rw [absorb_of_empty h0]
    exact ⟨by simp [hb], by simp [h0], by simp [h0], by simp [hb, absorbAligned_buffered]⟩
  · rcases Nat.lt_or_ge (s.FILL + inp.length) 64 with h | h
    · have hlen : (buffered s ++ inp).length < 64 := by simp [buffered_length hf, h]
      rw [absorb_of_short h0 h, wholeBlocks_of_lt hlen, tailBytes_of_lt hlen]
      refine ⟨rfl, ?_, ?_, ?_⟩
      · simp [Nat.div_eq_of_lt h]
      · simp [Nat.mod_eq_of_lt h]
      · exact writeBytes_take s.CB s.FILL inp (by omega)
    · rw [absorb_of_full h0 hf h, carry_completed hf h, wholeBlocks_block_append, tailBytes_block_append]
      refine ⟨rfl, ?_, ?_, absorbAligned_buffered _ _⟩
      · have hq : 64 * ((s.FILL + inp.length) / 64) = 64 + 64 * ((inp.length - (64 - s.FILL)) / 64) := by omega
        rw [hq, BitVec.ofNat_add, ← BitVec.add_assoc]
        simp
      · simp; omega

/-- UPDATE's body in one record: R117 (a), STREAMING by R116, and everything else as before. -/
theorem updateBody_eq (s : State) (inp : List Byte) (hf : s.FILL ≤ 64) :
    updateBody s inp =
      { s with
        H := compressAll s.H (wholeBlocks (buffered s ++ inp))
        CNTR := s.CNTR + BitVec.ofNat 64 (64 * ((s.FILL + inp.length) / 64))
        CB := (absorb s inp).CB
        FILL := (s.FILL + inp.length) % 64
        STREAMING := streamingAfterUpdate s.cfg inp.length s.STREAMING } := by
  obtain ⟨hH, hC, hF, -⟩ := absorb_closed_form s inp hf
  rw [updateBody, absorb_frame, ← hH, ← hC, ← hF]

@[simp] theorem updateBody_H (s : State) (inp : List Byte) : (updateBody s inp).H = (absorb s inp).H := rfl
@[simp] theorem updateBody_CNTR (s : State) (inp : List Byte) : (updateBody s inp).CNTR = (absorb s inp).CNTR := rfl
@[simp] theorem updateBody_CB (s : State) (inp : List Byte) : (updateBody s inp).CB = (absorb s inp).CB := rfl
@[simp] theorem updateBody_FILL (s : State) (inp : List Byte) : (updateBody s inp).FILL = (absorb s inp).FILL := rfl
@[simp] theorem updateBody_STREAMING (s : State) (inp : List Byte) :
    (updateBody s inp).STREAMING = streamingAfterUpdate s.cfg inp.length s.STREAMING := rfl
@[simp] theorem updateBody_DIGEST_VALID (s : State) (inp : List Byte) :
    (updateBody s inp).DIGEST_VALID = s.DIGEST_VALID := absorb_DIGEST_VALID s inp
@[simp] theorem updateBody_DISPOSED (s : State) (inp : List Byte) : (updateBody s inp).DISPOSED = s.DISPOSED :=
  absorb_DISPOSED s inp
@[simp] theorem updateBody_DOUT (s : State) (inp : List Byte) : (updateBody s inp).DOUT = s.DOUT := absorb_DOUT s inp
@[simp] theorem updateBody_host (s : State) (inp : List Byte) : (updateBody s inp).host = s.host := absorb_host s inp
@[simp] theorem updateBody_pc (s : State) (inp : List Byte) : (updateBody s inp).pc = s.pc := absorb_pc s inp
@[simp] theorem updateBody_responses (s : State) (inp : List Byte) : (updateBody s inp).responses = s.responses :=
  absorb_responses s inp
@[simp] theorem updateBody_cfg (s : State) (inp : List Byte) : (updateBody s inp).cfg = s.cfg := absorb_cfg s inp

/-- `buffered` reads CB and FILL only. -/
theorem updateBody_buffered (s : State) (inp : List Byte) : buffered (updateBody s inp) = buffered (absorb s inp) := rfl

end Sys2Proof.Machine
end

