-- ==== Sys2Proof/Laws/Compressor.lean ====
section
/-! SUPPORT. The lengths of the compressor's parts (41_block_compressor.md R151, R152). -/

namespace Sys2Proof.Machine

theorem wordsOf_length (bs : List Byte) : (wordsOf bs).length = bs.length / 4 := by
  induction bs using wordsOf.induct with
  | case1 b0 b1 b2 b3 rest ih => simp only [wordsOf, List.length_cons, ih]; omega
  | case2 bs h =>
    have hlt : bs.length < 4 := by
      rcases bs with _ | ⟨b0, _ | ⟨b1, _ | ⟨b2, _ | ⟨b3, rest⟩⟩⟩⟩ <;> simp
      exact (h b0 b1 b2 b3 rest rfl).elim
    rw [wordsOf, Nat.div_eq_of_lt hlt]
    · rfl
    · exact h

/-- A block has 16 words (R53). -/
theorem wordsOf_block_length (blk : Block) : (wordsOf blk.toList).length = 16 := by
  rw [wordsOf_length, Vector.length_toList]

@[simp] theorem expand_length (n : Nat) (w : List Word) : (expand n w).length = n + w.length := by
  induction n generalizing w with
  | zero => simp [expand]
  | succ n ih => rw [expand, ih]; simp [expandStep]; omega

/-- The schedule has 80 words (R28). -/
@[simp] theorem schedule_length (blk : Block) : (schedule blk).length = 80 := by
  simp [schedule, wordsOf_block_length]

/-- The 64-bit length field has 8 bytes (R8). -/
@[simp] theorem be64_length (x : BitVec 64) : (be64 x).length = 8 := rfl

/-- Padding always ends on a block boundary (R102). -/
theorem padTail_length {tail : List Byte} (h : tail.length < 64) (total : Nat) :
    (padTail tail total).length = if tail.length ≤ 55 then 64 else 128 := by
  simp only [padTail, padCount, List.length_append, List.length_replicate, be64_length, List.length_singleton]
  split <;> split <;> omega

end Sys2Proof.Machine
end

