-- ==== Sys2Proof/Laws/Decode.lean ====
section
/-! SUPPORT. Command words and operands: the fields of an encoded word, and what the decoder's parts accept (30_encoding.md R71 to
R73, R76, R84). -/

namespace Sys2Proof

/-! ## Command words -/

theorem encodeWord_fieldRsv (c : Cmd) : fieldRsv (encodeWord c) = 0 := by
  rcases c with ⟨op, b⟩
  cases op <;> cases b <;> decide

theorem encodeWord_fieldOp (c : Cmd) : fieldOp (encodeWord c) = c.op.code := by
  rcases c with ⟨op, b⟩
  cases op <;> cases b <;> decide

theorem encodeWord_fieldB (c : Cmd) : fieldB (encodeWord c) = c.b := by
  rcases c with ⟨op, b⟩
  cases op <;> cases b <;> decide

/-- The opcode map and the codes are each other's inverse (R72). -/
theorem ofCode_eq_some_iff (x : BitVec 8) (op : Opcode) : Opcode.ofCode x = some op ↔ x = op.code := by
  unfold Opcode.ofCode
  cases op <;> simp only [Opcode.code] <;> (repeat' split) <;> simp_all

/-- A word is its three fields, RSV in front (R71). -/
theorem word_eq_fields (w : Word) : w = fieldRsv w ++ BitVec.ofBool (fieldB w) ++ fieldOp w := by
  apply BitVec.eq_of_getLsbD_eq
  intro i hi
  simp only [fieldRsv, fieldB, fieldOp, BitVec.getLsbD_append, BitVec.getLsbD_extractLsb']
  by_cases h8 : i < 8
  · simp [h8]
  · by_cases h9 : i < 9
    · have : i = 8 := by omega
      subst this
      simp
    · have h : ¬ i - 8 < 1 := by omega
      have hs : 9 + (i - 8 - 1) = i := by omega
      simp only [h8, h, decide_false, if_false, hs]
      have : i - 8 - 1 < 23 := by omega
      simp [this]

/-- An encoded command word decodes to its command where B is allowed (R84). -/
theorem decodeWord_encodeWord (c : Cmd) (h : c.b = true → c.op.allowsBuffer = true) : decodeWord (encodeWord c) = .ok c := by
  rcases c with ⟨op, b⟩
  cases op <;> cases b <;> first | rfl | (exact absurd (h rfl) (by decide))

/-! ## Operands -/

theorem decodeBare_eq_ok_iff (i j : Instr) (b : Bool) (ops : List Word) (data : List Byte) :
    decodeBare i b ops data = .ok j ↔ b = false ∧ ops = [] ∧ data = [] ∧ i = j := by
  unfold decodeBare
  split <;> simp_all

theorem decodeSized_eq_ok_iff (i j : Instr) (size : Word) (data : List Byte) :
    decodeSized i size data = .ok j ↔ data.length = size.toNat ∧ i = j := by
  unfold decodeSized
  split <;> simp_all

theorem decodeUpdate_eq_ok_iff (j : Instr) (b : Bool) (ops : List Word) (data : List Byte) :
    decodeUpdate b ops data = .ok j ↔
      (∃ off cnt, b = false ∧ ops = [off, cnt] ∧ data = [] ∧ Instr.update none off cnt = j) ∨
      (∃ off cnt size, b = true ∧ ops = [off, cnt, size] ∧ data.length = size.toNat ∧ Instr.update (some data) off cnt = j) := by
  rcases ops with _ | ⟨x, _ | ⟨y, _ | ⟨z, _ | ⟨u, r⟩⟩⟩⟩ <;> cases b <;> simp [decodeUpdate, decodeSized_eq_ok_iff]
  split <;> simp_all

theorem decodeCompute_eq_ok_iff (j : Instr) (b : Bool) (ops : List Word) (data : List Byte) :
    decodeCompute b ops data = .ok j ↔
      (b = false ∧ ops = [] ∧ data = [] ∧ Instr.compute none = j) ∨
      (∃ size, b = true ∧ ops = [size] ∧ data.length = size.toNat ∧ Instr.compute (some data) = j) := by
  rcases ops with _ | ⟨x, _ | ⟨y, r⟩⟩ <;> cases b <;> simp [decodeCompute, decodeSized_eq_ok_iff]
  split <;> simp_all

/-- A SIZE operand gives back the length it was made from, where that fits (R76). -/
theorem toNat_ofNat_length {bs : List Byte} (h : bs.length < 2 ^ 32) : (BitVec.ofNat 32 bs.length).toNat = bs.length := by
  rw [BitVec.toNat_ofNat, Nat.mod_eq_of_lt h]

/-- A buffer fits a frame when its length fits SIZE. -/
theorem bufferWf_some (bs : List Byte) : bufferWf (some bs) = true ↔ bs.length < 2 ^ 32 := by
  rw [bufferWf, decide_eq_true_eq]

end Sys2Proof
end

