-- ==== Sys2Proof/Laws/Exec.lean ====
section
/-! SUPPORT. What the shared endings of a command and each command can do: one lemma each, which later proofs cite instead of
unfolding the meanings. -/

namespace Sys2Proof.Machine

/-! ## The shared endings -/

theorem accept_eq (d : Option Digest) (s : State) : accept d s = .next (accepted d s) := rfl

theorem reject_eq (e : ErrorKind) (s : State) : reject e s = .next (rejected e s) := rfl

theorem unlessDisposed_of_disposed {s : State} (h : s.DISPOSED = true) (k : Host.Outcome State Fault Refusal) :
    unlessDisposed s k = .next (rejected .useAfterDispose s) := by
  simp [unlessDisposed, h, reject_eq]

theorem unlessDisposed_of_live {s : State} (h : s.DISPOSED = false) (k : Host.Outcome State Fault Refusal) :
    unlessDisposed s k = k := by
  simp [unlessDisposed, h]

theorem finalize_of_tooLong {s : State} (h : tooLong s.cfg (totalBytes s) = true) :
    finalize s = .refused .messageTooLong := by
  simp [finalize, h]

theorem finalize_of_fits {s : State} (h : tooLong s.cfg (totalBytes s) = false) :
    finalize s = .next (accepted (some (finalDigest s)) (finalBody s)) := by
  simp [finalize, h, accept_eq]

/-- FINAL has a step below 2^61 message bytes, and always under LONG_MSG = wrap (R122). -/
theorem tooLong_eq_false {cfg : Config} {n : Nat} (h : n < 2 ^ 61 ∨ cfg.longMsg = .wrap) : tooLong cfg n = false := by
  rcases h with h | h
  · have hn : decide (2 ^ 61 ≤ n) = false := decide_eq_false (by omega)
    simp only [tooLong, hn, Bool.false_and]
  · simp [tooLong, h]

/-- The argument check, as the inequalities of R111. -/
theorem argsOk_iff (off cnt : Int) (size : Nat) : argsOk off cnt size = true ↔ 0 ≤ off ∧ 0 ≤ cnt ∧ off + cnt ≤ size := by
  simp [argsOk, and_assoc]

/-- The argument check passes exactly when none of R111's causes holds. The bytes are then those of the range. -/
theorem updateInput_eq_some_iff (buf : Option (List Byte)) (off cnt : Word) (inp : List Byte) :
    updateInput buf off cnt = some inp ↔
      ∃ d, buf = some d ∧ 0 ≤ sext32 off ∧ 0 ≤ sext32 cnt ∧ sext32 off + sext32 cnt ≤ d.length ∧
        inp = hostBytes d (sext32 off).toNat (sext32 cnt).toNat := by
  cases buf with
  | none => simp [updateInput]
  | some d =>
    simp only [Option.some.injEq, exists_eq_left']
    cases h : argsOk (sext32 off) (sext32 cnt) d.length with
    | true =>
      obtain ⟨h1, h2, h3⟩ := (argsOk_iff _ _ _).mp h
      simp only [updateInput, h, if_true, Option.some.injEq]
      exact ⟨fun e => ⟨h1, h2, h3, e.symm⟩, fun e => e.2.2.2.symm⟩
    | false =>
      simp only [updateInput, h, Bool.false_eq_true, if_false, reduceCtorEq, false_iff]
      rintro ⟨h1, h2, h3, -⟩
      have := (argsOk_iff _ _ _).mpr ⟨h1, h2, h3⟩
      simp [h] at this

/-- The bytes the engine takes from a checked range are as many as CNT says. -/
theorem hostBytes_length {d : List Byte} {off cnt : Nat} (h : off + cnt ≤ d.length) : (hostBytes d off cnt).length = cnt := by
  simp [hostBytes]; omega

/-- Byte `j` of the range is `HostRead(buf, off + j)` (R51). -/
theorem hostBytes_getElem? (d : List Byte) (off cnt j : Nat) (h : j < cnt) :
    (hostBytes d off cnt)[j]? = hostRead d (off + j) := by
  simp [hostBytes, hostRead, h]

/-! ## What a command can do -/

/-- A command that has a next state is rejected, or accepted with its body's effect. -/
theorem exec_next_cases {i : Instr} {s t : State} (h : exec i s = .next t) :
    (s.DISPOSED = true ∧ t = rejected .useAfterDispose s) ∨
    (s.DISPOSED = false ∧
      ((i = .init ∧ t = accepted none (initBody s)) ∨
       (∃ buf off cnt, i = .update buf off cnt ∧ updateInput buf off cnt = none ∧ t = rejected .invalidArgument s) ∨
       (∃ buf off cnt inp, i = .update buf off cnt ∧ updateInput buf off cnt = some inp ∧
          t = accepted none (updateBody s inp)) ∨
       (i = .final ∧ tooLong s.cfg (totalBytes s) = false ∧ t = accepted (some (finalDigest s)) (finalBody s)) ∨
       (i = .compute none ∧ t = rejected .invalidArgument s) ∨
       (∃ d, i = .compute (some d) ∧
          tooLong s.cfg (totalBytes (updateBody (initBody s) d)) = false ∧
          t = accepted (some (finalDigest (updateBody (initBody s) d))) (finalBody (updateBody (initBody s) d))) ∨
       (i = .rddigest ∧ digestReadable s = true ∧ t = accepted (some s.DOUT) s) ∨
       (i = .rddigest ∧ digestReadable s = false ∧ t = rejected .illegalState s) ∨
       (i = .dispose ∧ t = accepted none (disposeBody s)))) := by
  cases hd : s.DISPOSED with
  | true =>
    left
    cases i <;>
      simp only [exec, execInit, execUpdate, execFinal, execCompute, execRddigest, execDispose,
        unlessDisposed_of_disposed hd] at h <;>
      exact ⟨rfl, by injection h with h; exact h.symm⟩
  | false =>
    right
    refine ⟨rfl, ?_⟩
    cases i with
    | init =>
      simp only [exec, execInit, unlessDisposed_of_live hd, accept_eq] at h
      injection h with h
      exact .inl ⟨rfl, h.symm⟩
    | update buf off cnt =>
      simp only [exec, execUpdate, unlessDisposed_of_live hd] at h
      right
      cases hu : updateInput buf off cnt with
      | none =>
        simp only [hu, reject_eq] at h
        injection h with h
        exact .inl ⟨buf, off, cnt, rfl, hu, h.symm⟩
      | some inp =>
        simp only [hu, accept_eq] at h
        injection h with h
        exact .inr (.inl ⟨buf, off, cnt, inp, rfl, hu, h.symm⟩)
    | final =>
      simp only [exec, execFinal, unlessDisposed_of_live hd] at h
      right; right; right; left
      cases ht : tooLong s.cfg (totalBytes s) with
      | true => simp [finalize_of_tooLong ht] at h
      | false =>
        rw [finalize_of_fits ht] at h
        injection h with h
        exact ⟨rfl, rfl, h.symm⟩
    | compute buf =>
      simp only [exec, execCompute, unlessDisposed_of_live hd] at h
      right; right; right; right
      cases buf with
      | none =>
        simp only [reject_eq] at h
        injection h with h
        exact .inl ⟨rfl, h.symm⟩
      | some d =>
        right; left
        refine ⟨d, rfl, ?_⟩
        have hcfg : (updateBody (initBody s) d).cfg = s.cfg := by simp
        cases ht : tooLong s.cfg (totalBytes (updateBody (initBody s) d)) with
        | true => rw [← hcfg] at ht; simp [finalize_of_tooLong ht] at h
        | false =>
          refine ⟨rfl, ?_⟩
          rw [← hcfg] at ht
          simp only [finalize_of_fits ht] at h
          injection h with h
          exact h.symm
    | rddigest =>
      simp only [exec, execRddigest, unlessDisposed_of_live hd] at h
      right; right; right; right; right; right
      cases hr : digestReadable s with
      | true =>
        simp only [hr, if_true, accept_eq] at h
        injection h with h
        exact .inl ⟨rfl, rfl, h.symm⟩
      | false =>
        simp only [hr, Bool.false_eq_true, if_false, reject_eq] at h
        injection h with h
        exact .inr (.inl ⟨rfl, rfl, h.symm⟩)
    | dispose =>
      simp only [exec, execDispose, unlessDisposed_of_live hd, accept_eq] at h
      injection h with h
      right; right; right; right; right; right; right; right
      exact ⟨rfl, h.symm⟩

/-! ## Runs -/

@[simp] theorem runCommands_nil (s : State) : runCommands [] s = .next s := rfl

theorem runCommands_cons {i : Instr} {s t : State} (h : exec i s = .next t) (is : List Instr) :
    runCommands (i :: is) s = runCommands is t := by
  simp [runCommands, h]

/-- A step on a frame that decodes runs its command. -/
theorem step_frame {s : State} {f : Frame} {i : Instr} (hn : nextInput s = some (.frame f)) (hd : decode f = .ok i) :
    step s = exec i s := by
  simp [step, hn, hd]

/-- A placed frame is the host's next input. -/
theorem nextInput_placeFrame (s : State) (f : Frame) : nextInput (placeFrame s f) = some (.frame f) := by
  have h : s.pc < (s.host ++ List.replicate (s.pc + 1 - s.host.length) (HostInput.frame f)).length := by
    simp; omega
  simp only [nextInput, placeFrame_host, placeFrame_pc]
  rw [List.getElem?_set_self h]

end Sys2Proof.Machine
end

