-- ==== Sys2Proof/Laws/PerInstr.lean ====
section
/-! SUPPORT. Facts about every command as syntax, one lemma for each constructor. -/

namespace Sys2Proof.Laws.CommandWord

/-- The first unit of a command's frame decodes to its operation and B, and says how many operand units follow (R72, R73,
R79). -/
def Statement (i : Instr) : Prop :=
  decodeWord (encodeWord i.cmd) = .ok i.cmd ∧ operandCount (encodeWord i.cmd) = i.operandUnits.length

theorem init : Statement .init := ⟨by decide, by decide⟩

theorem update (buf : Option (List Byte)) (off cnt : Word) : Statement (.update buf off cnt) := by
  cases buf with
  | none => exact ⟨show decodeWord (encodeWord ⟨.update, false⟩) = .ok ⟨.update, false⟩ by decide, show operandCount (encodeWord ⟨.update, false⟩) = 2 by decide⟩
  | some d => exact ⟨show decodeWord (encodeWord ⟨.update, true⟩) = .ok ⟨.update, true⟩ by decide, show operandCount (encodeWord ⟨.update, true⟩) = 3 by decide⟩

theorem final : Statement .final := ⟨by decide, by decide⟩

theorem compute (buf : Option (List Byte)) : Statement (.compute buf) := by
  cases buf with
  | none => exact ⟨show decodeWord (encodeWord ⟨.compute, false⟩) = .ok ⟨.compute, false⟩ by decide, show operandCount (encodeWord ⟨.compute, false⟩) = 0 by decide⟩
  | some d => exact ⟨show decodeWord (encodeWord ⟨.compute, true⟩) = .ok ⟨.compute, true⟩ by decide, show operandCount (encodeWord ⟨.compute, true⟩) = 1 by decide⟩

theorem rddigest : Statement .rddigest := ⟨by decide, by decide⟩

theorem dispose : Statement .dispose := ⟨by decide, by decide⟩

end Sys2Proof.Laws.CommandWord
end

