-- ==== Sys2Proof/Tests/Slice0.lean ====
section
/-! SUPPORT. Tests against values written in the spec (95_test_vectors.md, 30_encoding.md), the refusals of ill-formed terms, and for
each statement with hypotheses a concrete state and operands that meet them. -/

namespace Sys2Proof.Tests

open Sys2Proof Sys2Proof.Machine

/-! ## Helpers -/

/-- `n` bytes of 'a'. -/
def letters (n : Nat) : List Byte := List.replicate n 0x61

/-- "abc" (vector L1-2). -/
def abc : List Byte := [0x61, 0x62, 0x63]

/-- The bytes `m, m+1, …` below `n`. -/
def bytesFrom (m n : Nat) : List Byte := (List.range (n - m)).map fun i => BitVec.ofNat 8 (m + i)

/-- The first 64 bytes of a sequence, zero-filled, as a block. -/
def blockOf (bs : List Byte) : Block := ⟨(bs.take 64 ++ List.replicate (64 - (bs.take 64).length) 0).toArray, by simp⟩

/-- The initial state with these bytes buffered, mid-stream. -/
def carrying (bs : List Byte) : State :=
  { State.reset with CB := writeBytes zeroBlock 0 bs, FILL := bs.length, STREAMING := true }

/-- A state that holds the digest of "abc" (vector E-3). -/
def holding : State := finalBody (carrying abc)

/-- A disposed engine. -/
def disposed : State := disposeBody State.reset

/-- An engine under LONG_MSG = refuse and ZL_STREAMING = false, with `c` bytes counted. -/
def strict (c : Counter) : State := { State.reset with CNTR := c, cfg := { zlStreaming := false, longMsg := .refuse } }

/-- The response of a completed command: STATUS code and RDATA bytes. -/
def answer (o : Host.Outcome State Fault Refusal) : Option (BitVec 8 × List Byte) :=
  match o with
  | .next t => t.responses.getLast?.map fun r => (r.status.code, (r.rdata.map (·.toList)).getD [])
  | .fault _ => none
  | .refused _ => none

/-- The digest bytes of vector L1-2. -/
def digestAbc : List Byte :=
  [0xa9, 0x99, 0x3e, 0x36, 0x47, 0x06, 0x81, 0x6a, 0xba, 0x3e, 0x25, 0x71, 0x78, 0x50, 0xc2, 0x6c, 0x9c, 0xd0, 0xd8, 0x9d]

/-- The digest bytes of vector L1-1. -/
def digestEmpty : List Byte :=
  [0xda, 0x39, 0xa3, 0xee, 0x5e, 0x6b, 0x4b, 0x0d, 0x32, 0x55, 0xbf, 0xef, 0x95, 0x60, 0x18, 0x90, 0xaf, 0xd8, 0x07, 0x09]

/-! ## Ill-formed terms (R76) -/

/-- A buffer of 2^32 bytes has no SIZE operand. -/
theorem test_wf_refuses_long_update : (Instr.update (some (List.replicate (2 ^ 32) 0)) 0 0).wf = false := by
  rw [Instr.wf, bufferWf, List.length_replicate]; rfl

theorem test_wf_refuses_long_compute : (Instr.compute (some (List.replicate (2 ^ 32) 0))).wf = false := by
  rw [Instr.wf, bufferWf, List.length_replicate]; rfl

theorem test_wf_accepts_longest_buffer : (Instr.compute (some (List.replicate (2 ^ 32 - 1) 0))).wf = true := by
  rw [Instr.wf, bufferWf, List.length_replicate]; rfl

/-! ## Decoding, from the words of 30_encoding.md and 95_test_vectors.md section 6 -/

theorem test_decode_init : decode { units := [0b00000000000000000000000000000001], data := [] } = .ok .init := by decide

theorem test_decode_update : decode { units := [0b00000000000000000000000100000010, 0xFFFFFFFF, 3, 3], data := abc } =
    .ok (.update (some abc) 0xFFFFFFFF 3) := by decide

theorem test_decode_update_absent :
    decode { units := [0b00000000000000000000000000000010, 0, 0], data := [] } = .ok (.update none 0 0) := by decide

theorem test_decode_final : decode { units := [0b00000000000000000000000000000011], data := [] } = .ok .final := by decide

theorem test_decode_compute :
    decode { units := [0b00000000000000000000000100000100, 3], data := abc } = .ok (.compute (some abc)) := by decide

theorem test_decode_compute_absent :
    decode { units := [0b00000000000000000000000000000100], data := [] } = .ok (.compute none) := by decide

theorem test_decode_rddigest : decode { units := [0b00000000000000000000000000000101], data := [] } = .ok .rddigest := by decide

theorem test_decode_dispose : decode { units := [0b00000000000000000000000000000110], data := [] } = .ok .dispose := by decide

/-- The Illegal rows of section 6. -/
theorem test_decode_illegal :
    ([0, 7, 0xFF, 0x101, 0x103, 0x105, 0x106, 0x201, 0x80000003] : List Word).map decodeWord =
      [.error .reservedOpcode, .error .reservedOpcode, .error .reservedOpcode, .error .bufferFlag, .error .bufferFlag,
        .error .bufferFlag, .error .bufferFlag, .error .reservedBits, .error .reservedBits] := by decide

/-- R78 (d): wrong DATA length, missing or extra operand units. -/
theorem test_decode_wrong_layout :
    ([⟨[0x104, 2], [0x78]⟩, ⟨[0x104], []⟩, ⟨[0x102, 0, 0], []⟩, ⟨[2, 0, 0, 0], []⟩, ⟨[1, 0], []⟩, ⟨[3], [0]⟩, ⟨[], []⟩] :
      List Frame).map decode = List.replicate 7 (.error .layout) := by decide

/-- The opcode table's rows, as the host numbers them. -/
theorem test_decode_table_words :
    [1, 2, 0x102, 3, 4, 0x104, 5, 6, 7].map (decodeTableWord 32) =
      [some .init, some (.update none 0 0), some (.update (some []) 0 0), some .final, some (.compute none),
        some (.compute (some [])), some .rddigest, some .dispose, none] := by decide

theorem test_step_runs_the_placed_word : answer (step (State.reset.withFetchWord 32 3)) = some (0x00, digestEmpty) := by
  decide +kernel

theorem test_operand_signs :
    sext32 0xFFFFFFFF = -1 ∧ sext32 0x80000000 = -2 ^ 31 ∧ sext32 0x7FFFFFFF = 2 ^ 31 - 1 ∧ zext32 0xFFFFFFFF = 4294967295 := by
  decide

/-! ## The Block Compressor (95_test_vectors.md section 2) -/

/-- F-2, F-4. -/
theorem test_mixing_functions :
    fCh 0xFFFFFFFF 0x12345678 0x9ABCDEF0 = 0x12345678 ∧ fPar 0xFFFFFFFF 0x12345678 0x9ABCDEF0 = 0x77777777 ∧
    fMaj 0xFFFFFFFF 0x12345678 0x9ABCDEF0 = 0x9ABCDEF8 ∧ fCh 0xF0F0F0F0 0xFF00FF00 0x0F0F0F0F = 0xFF0FFF0F ∧
    fPar 0xF0F0F0F0 0xFF00FF00 0x0F0F0F0F = 0x00FF00FF ∧ fMaj 0xF0F0F0F0 0xFF00FF00 0x0F0F0F0F = 0xFF00FF00 := by decide

/-- R-1 to R-5, A-1. -/
theorem test_rotations :
    rotl 1 0x80000000 = 1 ∧ rotl 5 0x08000000 = 1 ∧ rotl 30 1 = 0x40000000 ∧ rotl 5 0x67452301 = 0xE8A4602C ∧
    rotl 30 0xEFCDAB89 = 0x7BF36AE2 ∧ (0xFFFFFFFF + 1 : Word) = 0 := by decide

/-- Words 15, 16, 56 and 79 of the "abc" schedule (section 2.2). -/
theorem test_schedule_abc :
    [15, 16, 56, 79].map (fun t => (schedule (blockOf (padTail abc 3))).getD t 0) =
      [0x18, 0xC2C4C700, 0x651D16A0, 0x822E0879] := by decide +kernel

/-- Round 0 of the "abc" block (section 2.2). -/
theorem test_round_zero : roundStep 0 0x61626380 (Working.start iv) =
    { a := 0x0116FC33, b := 0x67452301, c := 0x7BF36AE2, d := 0x98BADCFE, e := 0x10325476 } := by decide

/-- C-1. -/
theorem test_compress_abc : compress iv (blockOf (padTail abc 3)) =
    { h0 := 0xA9993E36, h1 := 0x4706816A, h2 := 0xBA3E2571, h3 := 0x7850C26C, h4 := 0x9CD0D89D } := by decide +kernel

/-- C-5, wrap-around in every addition. -/
theorem test_compress_all_ones :
    compress { h0 := 0xFFFFFFFF, h1 := 0xFFFFFFFF, h2 := 0xFFFFFFFF, h3 := 0xFFFFFFFF, h4 := 0xFFFFFFFF }
        (blockOf (List.replicate 64 0xFF)) =
      { h0 := 0x3F48159B, h1 := 0x2DCE51FA, h2 := 0x8A1E930A, h3 := 0x02083B68, h4 := 0xEF70D6E8 } := by decide +kernel

/-- P-2 to P-5 and P-8: length, pad bytes and length field. -/
theorem test_pad_tail :
    (padTail (letters 3) 3).drop 3 = 0x80 :: List.replicate 52 0 ++ [0, 0, 0, 0, 0, 0, 0, 0x18] ∧
    (padTail (letters 55) 55).drop 55 = 0x80 :: [0, 0, 0, 0, 0, 0, 0x01, 0xB8] ∧
    (padTail (letters 56) 56).drop 56 = 0x80 :: List.replicate 63 0 ++ [0, 0, 0, 0, 0, 0, 0x01, 0xC0] ∧
    (padTail (letters 63) 63).drop 63 = 0x80 :: List.replicate 56 0 ++ [0, 0, 0, 0, 0, 0, 0x01, 0xF8] ∧
    padTail [] (2 ^ 61) = 0x80 :: List.replicate 63 0 := by decide +kernel

/-! ## The commands (95_test_vectors.md sections 1, 3, 4, 5) -/

/-- E-2. -/
theorem test_init_discards :
    exec .init (carrying abc) = .next { State.reset with CB := writeBytes zeroBlock 0 abc, responses := [⟨.ok, none⟩], pc := 1 } :=
  rfl

/-- U-2, the second command: the carry of 60 bytes is completed, 6 bytes stay. -/
theorem test_update_completes_carry :
    (match exec (.update (some (bytesFrom 0 70)) 60 10) (carrying (bytesFrom 0 60)) with
      | .next t => decide (t.H = { h0 := 0xB9AC757B, h1 := 0xBC297925, h2 := 0x2E227274, h3 := 0x06872F94, h4 := 0xCBEA56A1 }) &&
          decide (t.CNTR = 64) && decide (t.FILL = 6) && decide (buffered t = bytesFrom 64 70)
      | _ => false) = true := by decide +kernel

/-- U-6 to U-10, and U-5's accepted empty range at the end of the buffer. -/
theorem test_update_argument_check :
    [exec (.update (some (letters 11)) 0xFFFFFFFF 3) State.reset, exec (.update (some (letters 11)) 0 12) State.reset,
      exec (.update (some (letters 11)) 5 0xFFFFFFFF) State.reset, exec (.update none 0 0) State.reset,
      exec (.update (some (letters 1)) 0x7FFFFFFF 0x7FFFFFFF) State.reset, exec (.update (some (letters 11)) 11 0) State.reset].map
        answer =
      [some (1, []), some (1, []), some (1, []), some (1, []), some (1, []), some (0, [])] := by decide +kernel

/-- E-3. -/
theorem test_final_abc : answer (exec .final (carrying abc)) = some (0x00, digestAbc) := by decide +kernel

/-- E-14: two final blocks. -/
theorem test_final_two_blocks : answer (exec .final (carrying (letters 56))) = some (0x00,
    [0xc2, 0xdb, 0x33, 0x0f, 0x60, 0x83, 0x85, 0x4c, 0x99, 0xd4, 0xb5, 0xbf, 0xb6, 0xe8, 0xf2, 0x9f, 0x20, 0x1b, 0xe6, 0x99]) := by
  decide +kernel

/-- E-8, from a state with "abc" buffered. -/
theorem test_compute_discards_the_old_message : answer (exec (.compute (some abc)) (carrying abc)) = some (0x00, digestAbc) := by
  decide +kernel

/-- The row n = 64 of section 3.2: a message block, then a padding block. -/
theorem test_compute_one_whole_block : answer (exec (.compute (some (letters 64))) State.reset) = some (0x00,
    [0x00, 0x98, 0xba, 0x82, 0x4b, 0x5c, 0x16, 0x42, 0x7b, 0xd7, 0xa1, 0x12, 0x2a, 0x5a, 0x44, 0x2a, 0x25, 0xec, 0x64, 0x4d]) := by
  decide +kernel

/-- E-4. -/
theorem test_rddigest_reads_the_digest : answer (exec .rddigest holding) = some (0x00, digestAbc) := by decide +kernel

/-- E-1 and E-6. -/
theorem test_rddigest_illegal_states :
    answer (exec .rddigest State.reset) = some (0x03, []) ∧
    answer (exec .rddigest { holding with STREAMING := true }) = some (0x03, []) := by decide

/-- E-10. -/
theorem test_dispose_wipes : exec .dispose (carrying abc) = .next
    { disposed with responses := [{ status := .ok, rdata := none }], pc := 1 } := rfl

/-- E-11 and U-11: UseAfterDispose comes first. -/
theorem test_disposed_rejects :
    [Instr.init, .final, .rddigest, .dispose, .compute (some abc), .update (some abc) 0xFFFFFFFF 3].map
      (fun i => answer (exec i disposed)) = List.replicate 6 (some (0x02, [])) := by decide

/-- E-12: reset lifts the disposed state, and the host goes on with what it lists behind it. -/
theorem test_reset_lifts_disposed : step { disposed with host := [.reset, .frame ⟨[1], []⟩] } =
    .next { State.reset with host := [.frame ⟨[1], []⟩] } := rfl

/-- Lines of P1 (section 7) and of R83. -/
theorem test_assemble :
    assemble [".buf m = hex:616263 ; P1".toList, "UPDATE m, 0, 3".toList, "UPDATE -, -1, 0x10".toList, "HASH m".toList,
        "COMPUTE ".toList ++ quoteChar :: "abc".toList ++ [quoteChar]] =
      some [⟨[0x102, 0, 3, 3], abc⟩, ⟨[2, 0xFFFFFFFF, 16], []⟩, ⟨[1], []⟩, ⟨[0x102, 0, 3, 3], abc⟩, ⟨[3], []⟩, ⟨[0x104, 3], abc⟩] := by
  decide +kernel

/-- `-` is an absent buffer and `hex:…` a byte sequence, so neither is a name (log entry 13). -/
theorem test_assemble_names :
    [".buf - = hex:61", ".buf hex:62 = hex:61", ".buf INIT = hex:61"].map (fun l => assemble [l.toList]) = [none, none, some []] := by
  decide +kernel

/-! ## Witnesses: the hypotheses of each statement can be met -/

/-- The state whose next input is the frame. -/
def facing (f : Frame) : State := { State.reset with host := [.frame f] }

theorem witness_DecodingAnEncodedCommandGivesItBack : (Instr.update (some abc) 0xFFFFFFFF 3).wf = true := by decide

theorem witness_EveryAcceptedFrameIsItsCommandsEncoding : decode ⟨[0x104, 3], abc⟩ = .ok (.compute (some abc)) := by decide

theorem witness_AFrameThatSpellsNoCommandIsRefused :
    nextInput (facing ⟨[], []⟩) = some (.frame ⟨[], []⟩) ∧ ¬ ∃ i : Instr, i.wf = true ∧ encode i = ⟨[], []⟩ :=
  ⟨rfl, by rintro ⟨i, -, h⟩; cases congrArg Frame.units h⟩

theorem witness_AssembledFramesSpellCommands : assemble ["INIT".toList] = some [⟨[1], []⟩] ∧ ⟨[1], []⟩ ∈ [(⟨[1], []⟩ : Frame)] :=
  ⟨by decide +kernel, List.mem_singleton.mpr rfl⟩

theorem witness_StepRunsTheDecodedCommand :
    (facing ⟨[3], []⟩).host[(facing ⟨[3], []⟩).pc]? = some (.frame ⟨[3], []⟩) ∧ decode ⟨[3], []⟩ = .ok .final := by decide

theorem witness_ResetInputResetsEveryElement : ({ disposed with host := [.reset] } : State).host[disposed.pc]? = some .reset := rfl

theorem witness_WithNoInputNothingChanges : State.reset.host.length ≤ State.reset.pc := by decide

theorem witness_SteppingThroughAListIsTheLeftFold :
    (∀ i ∈ [Instr.init, .final], i.wf = true) ∧
    ({ State.reset with host := [.reset, .frame ⟨[1], []⟩, .frame ⟨[3], []⟩, .reset], pc := 1 } : State).host.drop 1 =
      [Instr.init, .final].map (fun i => HostInput.frame (encode i)) ++ [.reset] := by decide

theorem witness_EveryCommandGivesOneResponse : ∃ t, exec .init State.reset = .next t := ⟨_, rfl⟩

/-- FINAL one byte below the bound, and at it under wrap. -/
theorem witness_EveryAdmittedCommandCompletes :
    Instr.final.wf = true ∧ (strict (2 ^ 61 - 64)).CNTR.toNat + (strict (2 ^ 61 - 64)).FILL < 2 ^ 61 ∧
    ({ State.reset with CNTR := 2 ^ 61 } : State).cfg.longMsg = .wrap := by decide +kernel

theorem witness_OnlyALongMessageIsRefused :
    Instr.final.wf = true ∧ exec .final (strict (2 ^ 61)) = .refused .messageTooLong := by
  refine ⟨rfl, ?_⟩
  simp only [exec, execFinal]
  rw [unlessDisposed_of_live rfl]
  exact finalize_of_tooLong (by decide +kernel)

/-- One state and command for each of the three kinds. -/
theorem witness_OnlyTheListedErrorsAreRaised :
    exec .init disposed = .next (rejected .useAfterDispose disposed) ∧
    exec (.compute none) State.reset = .next (rejected .invalidArgument State.reset) ∧
    exec .rddigest State.reset = .next (rejected .illegalState State.reset) := ⟨rfl, rfl, rfl⟩

theorem witness_ARejectedCommandChangesNothing :
    exec .rddigest State.reset = .next (rejected .illegalState State.reset) ∧
    (rejected .illegalState State.reset).responses = State.reset.responses ++ [{ status := .error .illegalState, rdata := none }] :=
  ⟨rfl, rfl⟩

/-- Each cause at its boundary (no buffer, off = -1, cnt = -1, one byte too far), and the largest accepted range beside them. -/
theorem witness_InvalidArgumentOnExactlyTheListedCauses :
    State.reset.DISPOSED = false ∧
    [exec (.update none 0 0) State.reset, exec (.update (some abc) 0xFFFFFFFF 3) State.reset,
      exec (.update (some abc) 3 0xFFFFFFFF) State.reset, exec (.update (some abc) 1 3) State.reset] =
      List.replicate 4 (.next (rejected .invalidArgument State.reset)) ∧
    (0xFFFFFFFF : Word).toInt = -1 ∧ ((abc.length : Nat) : Int) < (1 : Word).toInt + (3 : Word).toInt ∧
    ¬ (some abc = none ∨ (0 : Word).toInt < 0 ∨ (3 : Word).toInt < 0 ∨
        ∃ d, some abc = some d ∧ (d.length : Int) < (0 : Word).toInt + (3 : Word).toInt) ∧
    ∃ t, exec (.compute (some abc)) State.reset = .next t := by
  refine ⟨rfl, rfl, by decide, by decide, ?_, ⟨_, rfl⟩⟩
  rintro (h | h | h | ⟨d, h, h'⟩)
  · cases h
  · exact absurd h (by decide)
  · exact absurd h (by decide)
  · cases h; exact absurd h' (by decide)

theorem witness_ADisposedEngineRejectsEveryCommand : disposed.DISPOSED = true := rfl

theorem witness_OnlyResetLeavesTheDisposedState :
    ({ disposed with host := [.frame ⟨[1], []⟩] } : State).host[disposed.pc]? ≠ some .reset ∧
    step { disposed with host := [.frame ⟨[1], []⟩] } =
      .next (rejected .useAfterDispose { disposed with host := [.frame ⟨[1], []⟩] }) := ⟨by decide, rfl⟩

theorem witness_InitRunsResetCore : (carrying abc).DISPOSED = false := rfl

theorem witness_InitEffect : holding.DISPOSED = false := rfl

/-- A fresh engine with the other choice of ZL_STREAMING. -/
theorem witness_InitWithNothingBegunChangesNothing : Inv (strict 0) ∧ (strict 0).DISPOSED = false ∧ (strict 0).STREAMING = false ∧
    (strict 0).DIGEST_VALID = false :=
  ⟨⟨by decide, by decide, fun _ _ => ⟨rfl, rfl, rfl⟩, fun _ => rfl, Bool.noConfusion, by decide⟩, rfl, rfl, rfl⟩

theorem witness_DisposeEffect : (carrying abc).DISPOSED = false := rfl

/-- Clause by clause at the boundary: 63 bytes in all stay, 64 are compressed, and an empty carry with a whole block. -/
theorem witness_UpdateFollowsItsFourSteps :
    (carrying (letters 1)).FILL < 64 ∧ (carrying (letters 1)).DISPOSED = false ∧
    0 ≤ (0 : Word).toInt ∧ 0 ≤ (62 : Word).toInt ∧ (0 : Word).toInt + (62 : Word).toInt ≤ ((letters 62).length : Nat) ∧
    (0 < (carrying (letters 1)).FILL ∧ (carrying (letters 1)).FILL + ((letters 62).drop 0 |>.take 62).length < 64) ∧
    (0 < (carrying (letters 1)).FILL ∧ 64 ≤ (carrying (letters 1)).FILL + ((letters 63).drop 0 |>.take 63).length) ∧
    State.reset.FILL = 0 := by decide

theorem witness_UpdateClosedForm :
    (carrying (letters 63)).FILL < 64 ∧ (carrying (letters 63)).DISPOSED = false ∧ 0 ≤ (1 : Word).toInt ∧ 0 ≤ (2 : Word).toInt ∧
    (1 : Word).toInt + (2 : Word).toInt ≤ ((abc.length : Nat) : Int) := by decide

theorem witness_AnUpdateOfNoBytesOnlySetsStreaming :
    (carrying (letters 63)).FILL < 64 ∧ (carrying (letters 63)).DISPOSED = false ∧ 0 ≤ (3 : Word).toInt ∧
    (3 : Word).toInt ≤ ((abc.length : Nat) : Int) := by decide

theorem witness_WholeBlocksAreTheSlices : 1 < (wholeBlocks (letters 130)).length := by decide +kernel

theorem witness_ChunkBoundariesDoNotMatter :
    State.reset.FILL < 64 ∧ State.reset.DISPOSED = false ∧ piecesFit [abc] ∧ piecesFit [[0x61], [0x62, 0x63]] ∧
    [abc].flatten = [[0x61], [0x62, 0x63]].flatten := by
  refine ⟨by decide, rfl, ?_, ?_, rfl⟩ <;> intro p hp <;> simp [abc] at hp <;> rcases hp with rfl | rfl <;> decide

theorem witness_ByteCounterAndFillCountTheMessage :
    CoreInitial State.reset ∧ State.reset.DISPOSED = false ∧ piecesFit [letters 64, []] := by
  refine ⟨⟨rfl, rfl, rfl⟩, rfl, ?_⟩
  intro p hp
  simp at hp
  rcases hp with rfl | rfl <;> decide

/-- Both sides of the bound between one block and two. -/
theorem witness_PadTailLayout : (letters 55).length ≤ 55 ∧ 55 < (letters 56).length ∧ (letters 63).length < 64 := by decide

theorem witness_FinalPadsCompressesAndSerialises :
    (carrying (letters 63)).FILL < 64 ∧ (carrying (letters 63)).DISPOSED = false ∧
    (carrying (letters 63)).CNTR.toNat + (carrying (letters 63)).FILL < 2 ^ 61 := by decide +kernel

/-- Clause by clause: disposed, refused at the bound, below it, and at it under wrap. -/
theorem witness_FinalEffect :
    disposed.DISPOSED = true ∧
    ((strict (2 ^ 61)).DISPOSED = false ∧ (strict (2 ^ 61)).cfg.longMsg = .refuse ∧
      2 ^ 61 ≤ (strict (2 ^ 61)).CNTR.toNat + (strict (2 ^ 61)).FILL) ∧
    (strict (2 ^ 61 - 64)).CNTR.toNat + (strict (2 ^ 61 - 64)).FILL < 2 ^ 61 ∧ (carrying abc).cfg.longMsg = .wrap := by decide +kernel

theorem witness_FinalOfNothingIsTheEmptyDigest : CoreInitial holding ∧ holding.DISPOSED = false := ⟨⟨rfl, rfl, rfl⟩, rfl⟩

theorem witness_TheDigestIsSha1OfTheMessage :
    CoreInitial State.reset ∧ State.reset.DISPOSED = false ∧ piecesFit [abc, letters 64] ∧
    [abc, letters 64].flatten.length < 2 ^ 61 := by
  refine ⟨⟨rfl, rfl, rfl⟩, rfl, ?_, by decide⟩
  intro p hp
  simp at hp
  rcases hp with rfl | rfl <;> decide

theorem witness_AnEngineIsReusableAfterFinal :
    (carrying abc).DISPOSED = false ∧ (carrying abc).cfg.longMsg = .wrap ∧ piecesFit [abc] ∧ [abc].flatten.length < 2 ^ 61 := by
  refine ⟨rfl, rfl, ?_, by decide⟩
  intro p hp
  simp at hp
  subst hp
  decide

/-- Clause by clause: disposed, no buffer, a buffer. -/
theorem witness_ComputeGivesSha1OfItsBuffer :
    disposed.DISPOSED = true ∧ (carrying abc).DISPOSED = false ∧ (letters 64).length < 2 ^ 32 := by decide

theorem witness_HashDoesWhatComputeDoes : (carrying abc).DISPOSED = false ∧ abc.length < 2 ^ 31 := by decide

/-- Clause by clause: disposed, mid-stream, no digest, a digest. -/
theorem witness_RdDigestEffect :
    disposed.DISPOSED = true ∧ ((carrying abc).DISPOSED = false ∧ (carrying abc).STREAMING = true) ∧
    (State.reset.DISPOSED = false ∧ State.reset.DIGEST_VALID = false) ∧
    (holding.DISPOSED = false ∧ holding.STREAMING = false ∧ holding.DIGEST_VALID = true) := by decide

/-- A command for each clause: RDDIGEST, UPDATE, INIT, FINAL, and the one that changes DISPOSED. -/
theorem witness_CommandsWriteOnlyTheirElements :
    (∃ t, exec .rddigest State.reset = .next t) ∧ (∃ t, exec (.update (some abc) 0 3) State.reset = .next t) ∧
    (∃ t, exec .init State.reset = .next t) ∧ (∃ t, exec .final (carrying abc) = .next t) ∧
    ∃ t, exec .dispose State.reset = .next t ∧ t.DISPOSED ≠ State.reset.DISPOSED :=
  ⟨⟨_, rfl⟩, ⟨_, rfl⟩, ⟨_, rfl⟩, ⟨_, rfl⟩, ⟨_, rfl, by decide⟩⟩

theorem witness_EveryStepKeepsTheInvariant :
    Inv { strict 0 with host := [.frame ⟨[6], []⟩] } ∧ ∃ t, step { strict 0 with host := [.frame ⟨[6], []⟩] } = .next t :=
  ⟨⟨by decide, by decide, fun _ _ => ⟨rfl, rfl, rfl⟩, fun _ => rfl, Bool.noConfusion, by decide⟩, ⟨_, rfl⟩⟩

/-- Two states that differ in `CB[3]` only, with 3 bytes buffered. -/
theorem witness_StaleCarryBytesNeverShow :
    SameButStale (carrying abc) { carrying abc with CB := (carrying abc).CB.setIfInBounds 3 0xFF } ∧
    carrying abc ≠ { carrying abc with CB := (carrying abc).CB.setIfInBounds 3 0xFF } :=
  ⟨⟨rfl, by decide⟩, by decide⟩

/-- Rounds on both sides of each change of phase. -/
theorem witness_RoundFollowsItsPhase : ∀ t ∈ [0, 19, 20, 39, 40, 59, 60, 79], t < 80 := by decide

/-- Both ranges of the schedule, at their ends. -/
theorem witness_ScheduleFollowsItsRecurrence : 0 < 16 ∧ 15 < 16 ∧ (16 ≤ 16 ∧ 16 < 80) ∧ (16 ≤ 79 ∧ 79 < 80) := by decide

theorem witness_CompressIsEightyRoundsAndFeedForward : 0 < 80 ∧ 79 < 80 := by decide

theorem witness_MixingFunctionsBitByBit : 0 < 32 ∧ 31 < 32 := by decide

/-- Some padding that leaves room for the length, not the least. -/
theorem witness_ZeroPaddingIsTheLeast : (3 + 1 + 116) % 64 = 56 := by decide

end Sys2Proof.Tests
end

section
/-! Proofs about INIT (R101, R105). -/

namespace Sys2Proof.Machine

/-- INIT on a live engine always completes, with its body's effect and an OK response without data. -/
theorem exec_init_of_live {s : State} (hd : s.DISPOSED = false) :
    exec .init s = .next (accepted none (initBody s)) := by
  simp only [exec, execInit, unlessDisposed_of_live hd, accept_eq]

/-- Settles O19: the next state is INIT's body with its response, and each element of it is read off by the laws of State. -/
theorem initRunsResetCore : Obligations.InitRunsResetCore := by
  unfold Obligations.InitRunsResetCore
  intro s hd
  refine ⟨accepted none (initBody s), exec_init_of_live hd, ?_, ?_, ?_, ?_⟩
  · rw [accepted_H, initBody_H, iv]
  · rw [accepted_CNTR, initBody_CNTR]
  · rw [accepted_FILL, initBody_FILL]
  · rw [accepted_CB, initBody_CB]

end Sys2Proof.Machine
end

section
/-! Proofs about the digest's byte order (R55, R103). -/

namespace Sys2Proof.Machine

/-- The four bytes of a word by their values, most significant first (R12). -/
theorem be32_eq_ofNat (w : Word) :
    be32 w = [BitVec.ofNat 8 (w.toNat / 2 ^ 24), BitVec.ofNat 8 (w.toNat / 2 ^ 16), BitVec.ofNat 8 (w.toNat / 2 ^ 8),
      BitVec.ofNat 8 w.toNat] := by
  simp only [be32, BitVec.extractLsb', Nat.shiftRight_eq_div_pow, pow_zero, Nat.div_one]

/-- Loading a word's four bytes gives the word back: adjacent slices join into one (R12). -/
theorem loadBe32_extractLsb' (w : Word) :
    loadBe32 (w.extractLsb' 24 8) (w.extractLsb' 16 8) (w.extractLsb' 8 8) (w.extractLsb' 0 8) = w := by
  unfold loadBe32
  rw [BitVec.extractLsb'_append_extractLsb'_eq_extractLsb' (by rfl),
    BitVec.extractLsb'_append_extractLsb'_eq_extractLsb' (by rfl),
    BitVec.extractLsb'_append_extractLsb'_eq_extractLsb' (by rfl)]
  exact BitVec.extractLsb'_eq_self

/-- A word's bytes in front of a byte sequence are read as that word (R53). -/
@[simp] theorem wordsOf_be32_append (w : Word) (bs : List Byte) : wordsOf (be32 w ++ bs) = w :: wordsOf bs :=
  congrArg (· :: wordsOf bs) (loadBe32_extractLsb' w)

/-- Reading words back from their bytes gives the words, in order (R12, R53). -/
theorem wordsOf_flatMap_be32 (ws : List Word) : wordsOf (ws.flatMap be32) = ws := by
  induction ws with
  | nil => rfl
  | cons w ws ih => rw [List.flatMap_cons, wordsOf_be32_append, ih]

/-- `Serialize(H)` is the words' bytes one after the other (R55, R103). -/
theorem serialize_toList (H : DigestState) :
    (serialize H).toList = [H.h0, H.h1, H.h2, H.h3, H.h4].flatMap be32 := rfl

/-- Settles O49: the digest is `be32` of each word in order, whose bytes have the stated values and are read back as the words. -/
theorem digestIsBigEndian : Obligations.DigestIsBigEndian := by
  unfold Obligations.DigestIsBigEndian
  intro H
  rw [serialize_toList]
  constructor
  · rw [funext be32_eq_ofNat]
  · exact wordsOf_flatMap_be32 _

end Sys2Proof.Machine
end

section
/-! Proofs about UPDATE's four steps (R112 to R115). -/

namespace Sys2Proof.Machine

/-- UPDATE on a live engine whose arguments pass the check of R111 completes with its body's effect. -/
theorem exec_update_of_live {s : State} {d : List Byte} {off cnt : Word} (hd : s.DISPOSED = false)
    (hoff : 0 ≤ off.toInt) (hcnt : 0 ≤ cnt.toInt) (hlen : off.toInt + cnt.toInt ≤ d.length) :
    exec (.update (some d) off cnt) s =
      .next (accepted none (updateBody s (hostBytes d off.toInt.toNat cnt.toInt.toNat))) := by
  have hin : updateInput (some d) off cnt = some (hostBytes d off.toInt.toNat cnt.toInt.toNat) :=
    (updateInput_eq_some_iff _ _ _ _).mpr ⟨d, rfl, hoff, hcnt, hlen, rfl⟩
  simp only [exec, execUpdate, unlessDisposed_of_live hd, hin, accept_eq]

/-- `writeBytes_getElem` with a total read of the written bytes. -/
theorem writeBytes_getElem_getD (cb : Block) (pos : Nat) (bs : List Byte) (j : Nat) (hj : j < 64) :
    (writeBytes cb pos bs)[j] = if pos ≤ j ∧ j < pos + bs.length then bs.getD (j - pos) 0 else cb[j] := by
  rw [writeBytes_getElem _ _ _ _ hj]
  split
  · rw [List.getD_eq_getElem]
  · rfl

/-- Byte `j` of the tail is byte `j` behind the whole blocks (R115). -/
theorem tailBytes_getD (bs : List Byte) (j : Nat) (x : Byte) :
    (tailBytes bs).getD j x = bs.getD (64 * (bs.length / 64) + j) x := by
  simp only [tailBytes, List.getD_eq_getElem?_getD, List.getElem?_drop]

/-- The CarryBuffer after the aligned steps: the tail at its start, the old bytes above it (R115). -/
theorem absorbAligned_CB_getElem (s : State) (inp : List Byte) (j : Nat) (hj : j < 64) :
    (absorbAligned s inp).CB[j] =
      if j < inp.length % 64 then inp.getD (64 * (inp.length / 64) + j) 0 else s.CB[j] := by
  simp only [absorbAligned_CB, writeBytes_getElem_getD _ _ _ _ hj, tailBytes_length, tailBytes_getD, Nat.zero_le,
    true_and, Nat.zero_add, Nat.sub_zero]

/-- The completed CarryBuffer: the buffered bytes, then the first input bytes (R112). -/
theorem completed_carry_toList {s : State} {inp : List Byte} (hf : s.FILL ≤ 64) (h : 64 ≤ s.FILL + inp.length) :
    (writeBytes s.CB s.FILL (inp.take (64 - s.FILL))).toList = buffered s ++ inp.take (64 - s.FILL) := by
  apply List.append_cancel_right (bs := inp.drop (64 - s.FILL))
  rw [← carry_completed hf h, List.append_assoc, List.take_append_drop]

/-- Absorbing into a carry that stays short (R112): the bytes are appended in order, and nothing is compressed. -/
theorem absorb_effect_of_short {s : State} {inp : List Byte} (h0 : 0 < s.FILL) (h : s.FILL + inp.length < 64) :
    (absorb s inp).H = s.H ∧ (absorb s inp).CNTR = s.CNTR ∧ (absorb s inp).FILL = s.FILL + inp.length ∧
      ∀ j (hj : j < 64), (absorb s inp).CB[j] =
        if s.FILL ≤ j ∧ j < s.FILL + inp.length then inp.getD (j - s.FILL) 0 else s.CB[j] := by
  rw [absorb_of_short h0 h]
  exact ⟨rfl, rfl, rfl, writeBytes_getElem_getD _ _ _⟩

/-- Absorbing with an empty carry (R114, R115). -/
theorem absorb_effect_of_empty {s : State} (h0 : s.FILL = 0) (inp : List Byte) :
    (absorb s inp).H = compressAll s.H (wholeBlocks inp) ∧
    (absorb s inp).CNTR = s.CNTR + BitVec.ofNat 64 (64 * (inp.length / 64)) ∧
    (absorb s inp).FILL = inp.length % 64 ∧
      ∀ j (hj : j < 64), (absorb s inp).CB[j] =
        if j < inp.length % 64 then inp.getD (64 * (inp.length / 64) + j) 0 else s.CB[j] := by
  rw [absorb_of_empty h0]
  exact ⟨absorbAligned_H _ _, absorbAligned_CNTR _ _, absorbAligned_FILL _ _, absorbAligned_CB_getElem _ _⟩

/-- Absorbing that completes the carry (R112, R113): the full carry is one block, and `rest`, the input behind it, is
absorbed with the carry empty. -/
theorem absorb_effect_of_full {s : State} {inp rest : List Byte} (h0 : 0 < s.FILL) (hf : s.FILL ≤ 64)
    (h : 64 ≤ s.FILL + inp.length) (hrest : rest = inp.drop (64 - s.FILL)) :
    ∃ full : Block, full.toList = buffered s ++ inp.take (64 - s.FILL) ∧
      (absorb s inp).H = compressAll (compress s.H full) (wholeBlocks rest) ∧
      (absorb s inp).CNTR = s.CNTR + 64 + BitVec.ofNat 64 (64 * (rest.length / 64)) ∧
      (absorb s inp).FILL = rest.length % 64 ∧
        ∀ j (hj : j < 64), (absorb s inp).CB[j] =
          if j < rest.length % 64 then rest.getD (64 * (rest.length / 64) + j) 0 else full[j] := by
  rw [absorb_of_full h0 hf h, ← hrest]
  exact ⟨_, completed_carry_toList hf h, absorbAligned_H _ _, absorbAligned_CNTR _ _, absorbAligned_FILL _ _,
    absorbAligned_CB_getElem _ _⟩

/-- Settles O23: UPDATE completes with the effect of `absorb`, and the three clauses are its three cases. -/
theorem updateFollowsItsFourSteps : Obligations.UpdateFollowsItsFourSteps := by
  unfold Obligations.UpdateFollowsItsFourSteps
  intro s d off cnt hf hd hoff hcnt hlen
  refine ⟨_, exec_update_of_live hd hoff hcnt hlen, ?_, ?_, ?_⟩
  · exact absorb_effect_of_short
  · exact fun h0 hfull => absorb_effect_of_full h0 hf.le hfull rfl
  · exact fun h0 => absorb_effect_of_empty h0 _

end Sys2Proof.Machine
end

section
/-! Proofs about padding and FINAL (R102, R123 to R126). -/

namespace Sys2Proof.Machine

/-- The pad reaches the last 8 bytes of the same block, or of the next where the length field does not fit (R102). -/
theorem padCount_eq {f : Nat} (hf : f < 64) : padCount f = if f ≤ 55 then 56 - f else 120 - f := by
  unfold padCount
  split <;> split <;> omega

/-- Settles O29: P is the model's pad count, and the total length is `padTail_length`. -/
theorem padTailLayout : Obligations.PadTailLayout := by
  unfold Obligations.PadTailLayout
  intro tail total hf
  have hP := padCount_eq hf
  have hlen := padTail_length hf total
  refine ⟨padCount tail.length, ?_, ?_, ?_, rfl, ?_, hlen⟩
  · split at hP <;> omega
  · split at hP <;> omega
  · split at hP <;> split <;> omega
  · split at hP <;> split at hlen <;> omega

/-- FINAL on a live engine completes with its body's effect and the digest, where LONG_MSG leaves it a step (R122). -/
theorem exec_final_of_live {s : State} (hd : s.DISPOSED = false) (hfit : tooLong s.cfg (totalBytes s) = false) :
    exec .final s = .next (accepted (some (finalDigest s)) (finalBody s)) := by
  simp only [exec, execFinal, unlessDisposed_of_live hd, finalize_of_fits hfit]

/-- Settles O31: FINAL compresses the padded tail of the buffered bytes, which is one block or two by `padTail_length`. -/
theorem finalPadsCompressesAndSerialises : Obligations.FinalPadsCompressesAndSerialises := by
  unfold Obligations.FinalPadsCompressesAndSerialises
  intro s hf hd hfit
  have hb : (buffered s).length = s.FILL := buffered_length hf.le
  have hX : s.CB.toList.take s.FILL ++ [0x80] ++ List.replicate (padCount s.FILL - 1) 0 ++
      be64 (BitVec.ofNat 64 (8 * (s.CNTR.toNat + s.FILL))) = padTail (buffered s) (totalBytes s) := by
    rw [padTail, hb, buffered, bitLength, totalBytes]
  have hlen : (padTail (buffered s) (totalBytes s)).length = if s.FILL ≤ 55 then 64 else 128 := by
    rw [padTail_length (hb.symm ▸ hf), hb]
  have hP := padCount_eq hf
  refine ⟨_, padCount s.FILL - 1, exec_final_of_live hd (tooLong_eq_false (.inl hfit)), ?_⟩
  rw [hX]
  refine ⟨hlen, ?_, ?_, rfl, rfl⟩
  · split at hP <;> omega
  · rw [wholeBlocks_length, hlen]
    split <;> rfl

end Sys2Proof.Machine
end

section
/-! Proofs about one round of the compressor (R154 to R158). -/

namespace Sys2Proof.Machine

/-- Rotation by less than a word's width is the library's (R11). -/
theorem rotl_eq_rotateLeft {n : Nat} (hn : n < 32) (a : Word) : rotl n a = a.rotateLeft n := by
  rw [BitVec.rotateLeft_def, Nat.mod_eq_of_lt hn, rotl]

/-- The ranges of the four phases by the round's quotient (R157). -/
theorem phase_cases {t : Nat} (ht : t < 80) :
    (t / 20 = 0 ∧ t ≤ 19) ∨ (t / 20 = 1 ∧ ¬ t ≤ 19 ∧ t ≤ 39) ∨ (t / 20 = 2 ∧ ¬ t ≤ 19 ∧ ¬ t ≤ 39 ∧ t ≤ 59) ∨
      (t / 20 = 3 ∧ ¬ t ≤ 19 ∧ ¬ t ≤ 39 ∧ ¬ t ≤ 59) := by
  omega

/-- The function of a round by its phase: choose, parity, majority, parity (R157). -/
theorem roundF_eq_of_phase {t : Nat} (ht : t < 80) (b c d : Word) :
    roundF t b c d = if t / 20 = 0 then fCh b c d else if t / 20 = 2 then fMaj b c d else fPar b c d := by
  rcases phase_cases ht with ⟨hp, h19⟩ | ⟨hp, h19, h39⟩ | ⟨hp, h19, h39, h59⟩ | ⟨hp, h19, h39, h59⟩
  · simp [roundF, hp, h19]
  · simp [roundF, hp, h19, h39]
  · simp [roundF, hp, h19, h39, h59]
  · simp [roundF, hp, h19, h39, h59]

/-- The constant of a round by its phase (R157). -/
theorem roundK_eq_of_phase {t : Nat} (ht : t < 80) :
    roundK t = if t / 20 = 0 then 0x5A827999 else if t / 20 = 1 then 0x6ED9EBA1
      else if t / 20 = 2 then 0x8F1BBCDC else 0xCA62C1D6 := by
  rcases phase_cases ht with ⟨hp, h19⟩ | ⟨hp, h19, h39⟩ | ⟨hp, h19, h39, h59⟩ | ⟨hp, h19, h39, h59⟩
  · simp [roundK, hp, h19]
  · simp [roundK, hp, h19, h39]
  · simp [roundK, hp, h19, h39, h59]
  · simp [roundK, hp, h19, h39, h59]

/-- Settles O45: a round's rotations are the library's, and its function and constant are those of its phase. -/
theorem roundFollowsItsPhase : Obligations.RoundFollowsItsPhase := by
  unfold Obligations.RoundFollowsItsPhase
  intro t w v ht
  rw [roundStep, rotl_eq_rotateLeft (by decide), rotl_eq_rotateLeft (by decide), roundF_eq_of_phase ht,
    roundK_eq_of_phase ht]
  rfl

end Sys2Proof.Machine
end

section
/-! Proofs about the message schedule (R151, R152). -/

namespace Sys2Proof.Machine

/-- Word `t` of a byte sequence is its bytes `4t` to `4t + 3` (R53, R151). -/
theorem wordsOf_getD (bs : List Byte) (t : Nat) (ht : t < bs.length / 4) :
    (wordsOf bs).getD t 0 =
      loadBe32 (bs.getD (4 * t) 0) (bs.getD (4 * t + 1) 0) (bs.getD (4 * t + 2) 0) (bs.getD (4 * t + 3) 0) := by
  induction bs using wordsOf.induct generalizing t with
  | case1 b0 b1 b2 b3 rest ih =>
    cases t with
    | zero => rfl
    | succ t =>
      have ht' : t < rest.length / 4 := by simp only [List.length_cons] at ht; omega
      exact ih t ht'
  | case2 bs h =>
    rw [← wordsOf_length, wordsOf.eq_2 bs h] at ht
    exact absurd ht (Nat.not_lt_zero t)

/-- Where `W` begins with `V`, both have the same entries as far as `V` reaches. -/
theorem getD_of_prefix {V W : List Word} (h : V <+: W) {i : Nat} (hi : i < V.length) : W.getD i 0 = V.getD i 0 := by
  obtain ⟨R, rfl⟩ := h
  exact List.getD_append _ _ _ _ hi

/-- The word that the recurrence of R152 gives for position `t` of the schedule `W`, first word first. -/
def recurrenceWord (W : List Word) (t : Nat) : Word :=
  (W.getD (t - 3) 0 ^^^ W.getD (t - 8) 0 ^^^ W.getD (t - 14) 0 ^^^ W.getD (t - 16) 0).rotateLeft 1

/-- The recurrence reads only words before position `t`. -/
theorem recurrenceWord_of_prefix {V W : List Word} (h : V <+: W) {t : Nat} (hlo : 16 ≤ t) (hhi : t ≤ V.length) :
    recurrenceWord W t = recurrenceWord V t := by
  simp (disch := omega) only [recurrenceWord, getD_of_prefix h]

/-- One step of the expansion, first word first: it appends the word of the recurrence (R152). -/
theorem expandStep_reverse {w : List Word} (hw : 16 ≤ w.length) :
    (expandStep w).reverse = w.reverse ++ [recurrenceWord w.reverse w.length] := by
  have hread (j : Nat) (hj : j < 16) : w.reverse.getD (w.length - (j + 1)) 0 = w.getD j 0 := by
    have hj' : j < w.reverse.length := by rw [List.length_reverse]; omega
    rw [Nat.sub_add_eq, Nat.sub_right_comm, ← List.length_reverse, ← List.getD_reverse j hj', List.reverse_reverse]
  rw [expandStep, List.reverse_cons, recurrenceWord, hread 2 (by decide), hread 7 (by decide), hread 13 (by decide),
    hread 15 (by decide), rotl_eq_rotateLeft (by decide)]

/-- The expansion keeps the words that are there (R152). -/
theorem reverse_prefix_expand_reverse (n : Nat) (w : List Word) : w.reverse <+: (expand n w).reverse := by
  rw [List.reverse_prefix]
  induction n generalizing w with
  | zero => exact List.suffix_rfl
  | succ n ih => exact (List.suffix_cons _ w).trans (ih (expandStep w))

/-- Every word that the expansion adds is the recurrence's (R152). -/
theorem expand_reverse_getD {n : Nat} {w : List Word} {t : Nat} (hw : 16 ≤ w.length) (hlo : w.length ≤ t)
    (hhi : t < n + w.length) : (expand n w).reverse.getD t 0 = recurrenceWord (expand n w).reverse t := by
  induction n generalizing w with
  | zero => omega
  | succ n ih =>
    have hlen : (expandStep w).length = w.length + 1 := rfl
    rcases hlo.eq_or_lt with rfl | hlt
    · calc (expand n (expandStep w)).reverse.getD w.length 0
        _ = (expandStep w).reverse.getD w.length 0 :=
          getD_of_prefix (reverse_prefix_expand_reverse n _) (by rw [List.length_reverse, hlen]; omega)
        _ = recurrenceWord w.reverse w.length := by simp [expandStep_reverse hw]
        _ = recurrenceWord (expand (n + 1) w).reverse w.length :=
          (recurrenceWord_of_prefix (reverse_prefix_expand_reverse (n + 1) w) hw List.length_reverse.ge).symm
    · exact ih (by omega) (by omega) (by omega)

/-- The schedule begins with the block's own words (R151). -/
theorem wordsOf_prefix_schedule (blk : Block) : wordsOf blk.toList <+: schedule blk := by
  simpa only [schedule, List.reverse_reverse] using reverse_prefix_expand_reverse 64 (wordsOf blk.toList).reverse

/-- Settles O44: the first 16 words are the block's, and the expansion adds the other 64 by the recurrence. -/
theorem scheduleFollowsItsRecurrence : Obligations.ScheduleFollowsItsRecurrence := by
  unfold Obligations.ScheduleFollowsItsRecurrence
  intro blk
  have h16 : (wordsOf blk.toList).length = 16 := wordsOf_block_length blk
  refine ⟨schedule_length blk, fun t ht => ?_, fun t hlo hhi => ?_⟩
  · rw [getD_of_prefix (wordsOf_prefix_schedule blk) (by omega),
      wordsOf_getD _ _ (by rw [← wordsOf_length]; omega), loadBe32]
  · have hrev : (wordsOf blk.toList).reverse.length = 16 := by rw [List.length_reverse, h16]
    exact expand_reverse_getD (by omega) (by omega) (by omega)

end Sys2Proof.Machine
end

section
/-! Proofs about the decoder and the encoder (R71 to R79, R84), and about the frames the assembler gives (R82, R83). -/

namespace Sys2Proof

/-- `decode(word)` is a command exactly when the word's fields spell it (R84). -/
theorem decodeWord_eq_ok_iff (w : Word) (c : Cmd) :
    decodeWord w = .ok c ↔
      fieldRsv w = 0 ∧ fieldOp w = c.op.code ∧ fieldB w = c.b ∧ (c.b = true → c.op.allowsBuffer = true) := by
  obtain ⟨op, b⟩ := c
  rw [decodeWord, ← ofCode_eq_some_iff]
  by_cases hr : fieldRsv w = 0#23
  · cases Opcode.ofCode (fieldOp w) with
    | none => simp [hr]
    | some op' =>
      by_cases hb : fieldB w = true ∧ op'.allowsBuffer = false
      · have hbad : op' = op → fieldB w = b → b = true ∧ op.allowsBuffer = false := by
          rintro rfl rfl
          exact hb
        simpa [hr, hb] using hbad
      · have hgood : op' = op → fieldB w = b → b = true → op.allowsBuffer = true := by
          rintro rfl rfl htrue
          simpa [htrue] using hb
        simpa [hr, hb] using hgood
  · simp [hr]

/-- A word that decodes is its command's encoding: no bit of it is ignored (R84). -/
theorem encodeWord_of_decodeWord {w : Word} {c : Cmd} (h : decodeWord w = .ok c) : encodeWord c = w := by
  obtain ⟨hrsv, hop, hb, -⟩ := (decodeWord_eq_ok_iff w c).mp h
  rw [word_eq_fields w, hrsv, hop, hb, encodeWord]

/-- A command with a buffer is UPDATE or COMPUTE (R74). -/
theorem allowsBuffer_of_cmd_b {i : Instr} (h : i.cmd.b = true) : i.cmd.op.allowsBuffer = true := by
  cases i with
  | update | compute => rfl
  | init | final | rddigest | dispose => exact absurd h (by decide)

/-- A buffer whose length a SIZE operand gives fits a frame, and that operand is its SIZE unit (R76). -/
theorem sizeUnits_of_length_eq {bs : List Byte} {size : Word} (h : bs.length = size.toNat) :
    bufferWf (some bs) = true ∧ sizeUnits (some bs) = [size] := by
  refine ⟨(bufferWf_some bs).mpr (h ▸ size.isLt), ?_⟩
  rw [sizeUnits, h, BitVec.ofNat_toNat, BitVec.setWidth_eq]

/-- Operands that decode are those of a well-formed command: no unit and no DATA byte is ignored (R73). -/
theorem operands_of_decodeOperands {c : Cmd} {ops : List Word} {data : List Byte} {i : Instr}
    (h : decodeOperands c ops data = .ok i) : i.wf = true ∧ i.cmd = c ∧ i.operandUnits = ops ∧ i.data = data := by
  obtain ⟨op, b⟩ := c
  cases op with
  | init | final | rddigest | dispose =>
    obtain ⟨rfl, rfl, rfl, rfl⟩ := (decodeBare_eq_ok_iff _ _ _ _ _).mp h
    exact ⟨rfl, rfl, rfl, rfl⟩
  | update =>
    obtain ⟨off, cnt, rfl, rfl, rfl, rfl⟩ | ⟨off, cnt, size, rfl, rfl, hsize, rfl⟩ :=
      (decodeUpdate_eq_ok_iff _ _ _ _).mp h
    · exact ⟨rfl, rfl, rfl, rfl⟩
    · obtain ⟨hwf, hunits⟩ := sizeUnits_of_length_eq hsize
      exact ⟨hwf, rfl, by rw [Instr.operandUnits, hunits], rfl⟩
  | compute =>
    obtain ⟨rfl, rfl, rfl, rfl⟩ | ⟨size, rfl, rfl, hsize, rfl⟩ := (decodeCompute_eq_ok_iff _ _ _ _).mp h
    · exact ⟨rfl, rfl, rfl, rfl⟩
    · obtain ⟨hwf, hunits⟩ := sizeUnits_of_length_eq hsize
      exact ⟨hwf, rfl, hunits, rfl⟩

/-- A well-formed command's operands decode to it (R73). -/
theorem decodeOperands_of_wf {i : Instr} (h : i.wf = true) : decodeOperands i.cmd i.operandUnits i.data = .ok i := by
  cases i with
  | init | final | rddigest | dispose => rfl
  | update buf off cnt =>
    cases buf with
    | none => rfl
    | some d => exact (decodeSized_eq_ok_iff _ _ _ _).mpr ⟨(toNat_ofNat_length ((bufferWf_some d).mp h)).symm, rfl⟩
  | compute buf =>
    cases buf with
    | none => rfl
    | some d => exact (decodeSized_eq_ok_iff _ _ _ _).mpr ⟨(toNat_ofNat_length ((bufferWf_some d).mp h)).symm, rfl⟩

/-- A frame decodes to a command exactly when the command is well formed and the frame is its encoding (R73, R78). -/
theorem decode_eq_ok_iff (f : Frame) (i : Instr) : decode f = .ok i ↔ i.wf = true ∧ encode i = f := by
  constructor
  · intro h
    obtain ⟨_ | ⟨w, ops⟩, data⟩ := f
    · cases h
    · cases hw : decodeWord w with
      | error e => simp [decode, hw] at h
      | ok c =>
        simp only [decode, hw] at h
        obtain ⟨hwf, rfl, rfl, rfl⟩ := operands_of_decodeOperands h
        exact ⟨hwf, by rw [encode, encodeWord_of_decodeWord hw]⟩
  · rintro ⟨hwf, rfl⟩
    simp only [decode, encode, decodeWord_encodeWord i.cmd allowsBuffer_of_cmd_b, decodeOperands_of_wf hwf]

/-- Settles O1: the encoding of a well-formed command is a frame that `decode_eq_ok_iff` reads back. -/
theorem decodingAnEncodedCommandGivesItBack : Obligations.DecodingAnEncodedCommandGivesItBack :=
  fun i hwf => (decode_eq_ok_iff (encode i) i).mpr ⟨hwf, rfl⟩

/-- Settles O2: the other direction of `decode_eq_ok_iff`. -/
theorem everyAcceptedFrameIsItsCommandsEncoding : Obligations.EveryAcceptedFrameIsItsCommandsEncoding :=
  fun f i => (decode_eq_ok_iff f i).mp

/-- RSV is the word divided by 2^9 (R71). -/
theorem fieldRsv_eq_zero_iff (w : Word) : fieldRsv w = 0 ↔ w.toNat / 2 ^ 9 = 0 := by
  have hlt : w.toNat / 2 ^ 9 < 2 ^ 23 := by have := w.isLt; omega
  rw [← BitVec.toNat_inj, fieldRsv, BitVec.extractLsb'_toNat, Nat.shiftRight_eq_div_pow, Nat.mod_eq_of_lt hlt]
  rfl

/-- OP is the word modulo 2^8 (R71). -/
theorem fieldOp_eq_iff (w : Word) (x : BitVec 8) : fieldOp w = x ↔ w.toNat % 256 = x.toNat := by
  rw [← BitVec.toNat_inj, fieldOp, BitVec.extractLsb'_toNat, Nat.shiftRight_zero]

/-- Settles O3: the four conditions of `decodeWord_eq_ok_iff`, with the fields read as numbers. -/
theorem commandWordsDecodeAsTheOpcodeMapSays : Obligations.CommandWordsDecodeAsTheOpcodeMapSays := by
  unfold Obligations.CommandWordsDecodeAsTheOpcodeMapSays
  rintro w ⟨op, b⟩
  rw [decodeWord_eq_ok_iff, fieldRsv_eq_zero_iff, fieldOp_eq_iff, fieldB, eq_comm (b := b)]
  cases op <;> simp [Opcode.code, Opcode.allowsBuffer] <;> tauto

/-- Settles O4 by evaluating the decoder on the twelve frames. -/
theorem writtenOutFramesDecode : Obligations.WrittenOutFramesDecode := by
  unfold Obligations.WrittenOutFramesDecode
  decide

end Sys2Proof

namespace Sys2Proof.Machine

/-- Every command of a line that assembles has a frame (R82, R83). -/
theorem AsmCommand.wf_of_mem_expand {c : AsmCommand} (h : c.encodable = true) {i : Instr} (hi : i ∈ c.expand) :
    i.wf = true := by
  have hlong {d : List Byte} (hd : d.length < 2 ^ 31) : (wholeUpdate d).wf = true :=
    (bufferWf_some d).mpr (by omega)
  cases c with
  | plain j => obtain rfl := List.mem_singleton.mp hi; exact h
  | updateAll d => obtain rfl := List.mem_singleton.mp hi; exact hlong (of_decide_eq_true h)
  | hash d =>
    simp only [AsmCommand.expand, List.mem_cons, List.not_mem_nil, or_false] at hi
    obtain rfl | rfl | rfl := hi
    · rfl
    · exact hlong (of_decide_eq_true h)
    · rfl

/-- The frames of an assembled line are the frames of well-formed commands (R82, R83). -/
theorem mem_assembleLine {env env' : Bindings} {ts : List Token} {fs : List Frame}
    (h : assembleLine env ts = some (env', fs)) {f : Frame} (hf : f ∈ fs) : ∃ i : Instr, i.wf = true ∧ encode i = f := by
  unfold assembleLine at h
  split at h
  · obtain ⟨-, rfl⟩ := Prod.mk.inj (Option.some.inj h)
    cases hf
  · split at h
    · obtain ⟨bs, -, hbs⟩ := Option.map_eq_some_iff.mp h
      obtain ⟨-, rfl⟩ := Prod.mk.inj hbs
      cases hf
    · cases h
  · cases hc : commandOf env ts with
    | none => simp [hc] at h
    | some c =>
      cases he : c.encodable with
      | false => simp [hc, he] at h
      | true =>
        simp only [hc, he, if_true, Option.some.injEq, Prod.mk.injEq] at h
        obtain ⟨-, rfl⟩ := h
        obtain ⟨i, hi, rfl⟩ := List.mem_map.mp hf
        exact ⟨i, AsmCommand.wf_of_mem_expand he hi, rfl⟩

/-- The frames of an assembled program are the frames of well-formed commands (R82, R83). -/
theorem mem_assembleFrom {env : Bindings} {lines : List (List Char)} {fs : List Frame}
    (h : assembleFrom env lines = some fs) {f : Frame} (hf : f ∈ fs) : ∃ i : Instr, i.wf = true ∧ encode i = f := by
  induction lines generalizing env fs with
  | nil =>
    obtain rfl := Option.some.inj h
    cases hf
  | cons line rest ih =>
    rw [assembleFrom] at h
    cases ht : tokens (.inWord []) line with
    | none => simp [ht] at h
    | some ts =>
      cases hl : assembleLine env ts with
      | none => simp [ht, hl] at h
      | some p =>
        obtain ⟨env', gs⟩ := p
        simp only [ht, hl] at h
        obtain ⟨hs, hrest, rfl⟩ := Option.map_eq_some_iff.mp h
        obtain hf | hf := List.mem_append.mp hf
        · exact mem_assembleLine hl hf
        · exact ih hrest hf

/-- Settles O6: an assembled frame is a well-formed command's, which decodes to it. -/
theorem assembledFramesSpellCommands : Obligations.AssembledFramesSpellCommands := by
  intro lines fs h f hf
  obtain ⟨i, hwf, hi⟩ := mem_assembleFrom h hf
  exact ⟨i, (decode_eq_ok_iff f i).mpr ⟨hwf, hi⟩⟩

/-- Settles O5: the decoder refuses such a frame by `decode_eq_ok_iff`, and the step with it. -/
theorem aFrameThatSpellsNoCommandIsRefused : Obligations.AFrameThatSpellsNoCommandIsRefused := by
  intro s f hn hno
  cases hd : decode f with
  | error why => exact ⟨why, by simp only [step, hn, hd, refuseFrame]⟩
  | ok i => exact absurd ⟨i, (decode_eq_ok_iff f i).mp hd⟩ hno

end Sys2Proof.Machine
end

section
/-! What every command and every step can end in: completing, rejecting, being refused (R60, R70, R200 to R214). -/

namespace Sys2Proof.Machine

/-! ## Each command on a live or a disposed engine -/

/-- A disposed engine rejects whatever comes (R207, R210). -/
theorem exec_of_disposed {s : State} (hd : s.DISPOSED = true) (i : Instr) :
    exec i s = .next (rejected .useAfterDispose s) := by
  cases i with
  | init | update | final | compute | rddigest | dispose => exact unlessDisposed_of_disposed hd _

/-- The causes of InvalidArgument in R111. -/
theorem updateInput_eq_none_iff (buf : Option (List Byte)) (off cnt : Word) :
    updateInput buf off cnt = none ↔
      buf = none ∨ off.toInt < 0 ∨ cnt.toInt < 0 ∨ ∃ d, buf = some d ∧ (d.length : Int) < off.toInt + cnt.toInt := by
  cases buf with
  | none => simp [updateInput]
  | some d =>
    have hok := argsOk_iff off.toInt cnt.toInt d.length
    rw [updateInput, sext32, sext32]
    simp only [reduceCtorEq, false_or, Option.some.injEq, exists_eq_left', ite_eq_right_iff, imp_false, hok]
    omega

/-- An UPDATE whose arguments fail the check is rejected (R111). -/
theorem exec_update_of_bad_args {s : State} {buf : Option (List Byte)} {off cnt : Word} (hd : s.DISPOSED = false)
    (hin : updateInput buf off cnt = none) : exec (.update buf off cnt) s = .next (rejected .invalidArgument s) := by
  simp only [exec, execUpdate, unlessDisposed_of_live hd, hin, reject_eq]

/-- An UPDATE whose arguments pass the check completes with its body's effect (R110). -/
theorem exec_update_of_input {s : State} {buf : Option (List Byte)} {off cnt : Word} {inp : List Byte}
    (hd : s.DISPOSED = false) (hin : updateInput buf off cnt = some inp) :
    exec (.update buf off cnt) s = .next (accepted none (updateBody s inp)) := by
  simp only [exec, execUpdate, unlessDisposed_of_live hd, hin, accept_eq]

/-- COMPUTE without a buffer is rejected (R131). -/
theorem exec_compute_none {s : State} (hd : s.DISPOSED = false) :
    exec (.compute none) s = .next (rejected .invalidArgument s) := by
  simp only [exec, execCompute, unlessDisposed_of_live hd, reject_eq]

/-- The bytes a fresh message of `d` counts to, modulo 2^64 (R23, R121). -/
theorem totalBytes_updateBody_initBody (s : State) (d : List Byte) :
    totalBytes (updateBody (initBody s) d) = 64 * (d.length / 64) % 2 ^ 64 + d.length % 64 := by
  rw [updateBody_eq _ _ (by simp)]
  simp [totalBytes]

/-- COMPUTE of a buffer that SIZE can give is the bodies of INIT, UPDATE and FINAL: its message is never too long
(R131 (c)). -/
theorem exec_compute_some {s : State} {d : List Byte} (hd : s.DISPOSED = false) (hlen : d.length < 2 ^ 32) :
    exec (.compute (some d)) s =
      .next (accepted (some (finalDigest (updateBody (initBody s) d))) (finalBody (updateBody (initBody s) d))) := by
  have hfit : totalBytes (updateBody (initBody s) d) < 2 ^ 61 := by
    rw [totalBytes_updateBody_initBody]; omega
  simp only [exec, execCompute, unlessDisposed_of_live hd]
  exact finalize_of_fits (tooLong_eq_false (.inl hfit))

/-- RDDIGEST answers with DOUT where it holds a digest (R135). -/
theorem exec_rddigest_of_readable {s : State} (hd : s.DISPOSED = false) (hr : digestReadable s = true) :
    exec .rddigest s = .next (accepted (some s.DOUT) s) := by
  simp only [exec, execRddigest, unlessDisposed_of_live hd, hr, if_true, accept_eq]

/-- RDDIGEST is rejected where there is no digest to read (R135, R208). -/
theorem exec_rddigest_of_not_readable {s : State} (hd : s.DISPOSED = false) (hr : digestReadable s = false) :
    exec .rddigest s = .next (rejected .illegalState s) := by
  simp only [exec, execRddigest, unlessDisposed_of_live hd, hr, Bool.false_eq_true, if_false, reject_eq]

/-- The digest is unreadable mid-stream, and where there is none (R208). -/
theorem digestReadable_eq_false_iff (s : State) :
    digestReadable s = false ↔ s.STREAMING = true ∨ s.DIGEST_VALID = false := by
  rw [digestReadable, Bool.and_eq_false_iff, Bool.not_eq_false']

/-- DISPOSE on a live engine always completes (R140). -/
theorem exec_dispose_of_live {s : State} (hd : s.DISPOSED = false) :
    exec .dispose s = .next (accepted none (disposeBody s)) := by
  simp only [exec, execDispose, unlessDisposed_of_live hd, accept_eq]

/-! ## Every command at once -/

/-- The commands whose OK response carries a digest (R80). -/
def Answers (i : Instr) : Prop := i = .final ∨ (∃ b, i = .compute b) ∨ i = .rddigest

/-- Which command raises which error (R201). -/
def Raises (i : Instr) (s : State) : ErrorKind → Prop
  | .useAfterDispose => s.DISPOSED = true
  | .invalidArgument => (∃ b o c, i = .update b o c) ∨ i = .compute none
  | .illegalState => i = .rddigest

/-- What a command's body leaves to its response: the host's side and the parameters. -/
def SameHostSide (s b : State) : Prop :=
  b.pc = s.pc ∧ b.host = s.host ∧ b.cfg = s.cfg ∧ b.responses = s.responses

/-- A command that has a next state either answers OK on the state its body leaves, or is rejected for a listed cause with
nothing else changed. -/
theorem exec_accepted_or_rejected {i : Instr} {s t : State} (h : exec i s = .next t) :
    (∃ d b, t = accepted d b ∧ SameHostSide s b ∧ (d.isSome = true ↔ Answers i)) ∨
      ∃ e, t = rejected e s ∧ Raises i s e := by
  obtain ⟨hd, rfl⟩ | ⟨hd, ⟨rfl, rfl⟩ | ⟨buf, off, cnt, rfl, -, rfl⟩ | ⟨buf, off, cnt, inp, rfl, -, rfl⟩ | ⟨rfl, -, rfl⟩ |
    ⟨rfl, rfl⟩ | ⟨d, rfl, -, rfl⟩ | ⟨rfl, -, rfl⟩ | ⟨rfl, -, rfl⟩ | ⟨rfl, rfl⟩⟩ := exec_next_cases h
  · exact .inr ⟨_, rfl, hd⟩
  · exact .inl ⟨_, _, rfl, ⟨rfl, rfl, rfl, rfl⟩, by simp [Answers]⟩
  · exact .inr ⟨_, rfl, .inl ⟨_, _, _, rfl⟩⟩
  · exact .inl ⟨_, _, rfl, ⟨by simp, by simp, by simp, by simp⟩, by simp [Answers]⟩
  · exact .inl ⟨_, _, rfl, ⟨rfl, rfl, rfl, rfl⟩, by simp [Answers]⟩
  · exact .inr ⟨_, rfl, .inr rfl⟩
  · exact .inl ⟨_, _, rfl, ⟨by simp, by simp, by simp, by simp⟩, by simp [Answers]⟩
  · exact .inl ⟨_, _, rfl, ⟨rfl, rfl, rfl, rfl⟩, by simp [Answers]⟩
  · exact .inr ⟨_, rfl, rfl⟩
  · exact .inl ⟨_, _, rfl, ⟨rfl, rfl, rfl, rfl⟩, by simp [Answers]⟩

/-- Where the record grew by an error response, the command was rejected with that error. -/
theorem exec_rejected_of_error {i : Instr} {s t : State} {r : Response} (h : exec i s = .next t)
    (hr : t.responses = s.responses ++ [r]) (he : r.status ≠ .ok) :
    ∃ e, r = { status := .error e, rdata := none } ∧ t = rejected e s ∧ Raises i s e := by
  obtain ⟨d, b, rfl, ⟨-, -, -, hresp⟩, -⟩ | ⟨e, rfl, hcause⟩ := exec_accepted_or_rejected h
  · rw [accepted_responses, hresp] at hr
    obtain rfl := List.singleton_inj.mp (List.append_cancel_left hr)
    exact absurd rfl he
  · rw [rejected_responses] at hr
    exact ⟨e, (List.singleton_inj.mp (List.append_cancel_left hr)).symm, rfl, hcause⟩

/-- Every command of a well-formed frame has a next state, but for FINAL of a long message under LONG_MSG = refuse
(R122). -/
theorem exec_completes {i : Instr} {s : State} (hwf : i.wf = true)
    (hlong : i = .final → s.CNTR.toNat + s.FILL < 2 ^ 61 ∨ s.cfg.longMsg = .wrap) : ∃ t, exec i s = .next t := by
  cases hd : s.DISPOSED with
  | true => exact ⟨_, exec_of_disposed hd i⟩
  | false =>
    cases i with
    | init => exact ⟨_, exec_init_of_live hd⟩
    | update buf off cnt =>
      cases hin : updateInput buf off cnt with
      | none => exact ⟨_, exec_update_of_bad_args hd hin⟩
      | some inp => exact ⟨_, exec_update_of_input hd hin⟩
    | final => exact ⟨_, exec_final_of_live hd (tooLong_eq_false (hlong rfl))⟩
    | compute buf =>
      cases buf with
      | none => exact ⟨_, exec_compute_none hd⟩
      | some d => exact ⟨_, exec_compute_some hd ((bufferWf_some d).mp hwf)⟩
    | rddigest =>
      cases hr : digestReadable s with
      | true => exact ⟨_, exec_rddigest_of_readable hd hr⟩
      | false => exact ⟨_, exec_rddigest_of_not_readable hd hr⟩
    | dispose => exact ⟨_, exec_dispose_of_live hd⟩

/-- FINAL of a long message under LONG_MSG = refuse has no step (R122). -/
theorem exec_final_of_long {s : State} (hd : s.DISPOSED = false) (hcfg : s.cfg.longMsg = .refuse)
    (hlong : 2 ^ 61 ≤ s.CNTR.toNat + s.FILL) : exec .final s = .refused .messageTooLong := by
  have htoo : tooLong s.cfg (totalBytes s) = true := by
    rw [tooLong, totalBytes, decide_eq_true hlong, decide_eq_true hcfg, Bool.and_true]
  simp only [exec, execFinal, unlessDisposed_of_live hd, finalize_of_tooLong htoo]

/-! ## Every step at once -/

/-- A step that has a next state waits, resets, or runs the command that its frame spells. -/
theorem step_next_cases {s t : State} (h : step s = .next t) :
    (nextInput s = none ∧ t = s) ∨ (nextInput s = some .reset ∧ t = hardwareReset s) ∨
      ∃ f i, nextInput s = some (.frame f) ∧ decode f = .ok i ∧ exec i s = .next t := by
  cases hn : nextInput s with
  | none =>
    simp only [step, hn, wait, Host.Outcome.next.injEq] at h
    exact .inl ⟨rfl, h.symm⟩
  | some x =>
    cases x with
    | reset =>
      simp only [step, hn, Host.Outcome.next.injEq] at h
      exact .inr (.inl ⟨rfl, h.symm⟩)
    | frame f =>
      cases hdec : decode f with
      | error why => simp [step, hn, hdec, refuseFrame] at h
      | ok i => exact .inr (.inr ⟨f, i, rfl, hdec, step_frame hn hdec ▸ h⟩)

end Sys2Proof.Machine
end

section
/-! Proofs about the step, the outcomes of commands, and what each command leaves alone. -/

namespace Sys2Proof.Machine

/-! ## The step -/

/-- Settles O7: `step_frame`, and a placed frame is the next input. -/
theorem stepRunsTheDecodedCommand : Obligations.StepRunsTheDecodedCommand :=
  ⟨fun _ _ _ => step_frame, fun s f _ => step_frame (nextInput_placeFrame s f)⟩

/-- Settles O8: the step on the reset input is `hardwareReset`. -/
theorem resetInputResetsEveryElement : Obligations.ResetInputResetsEveryElement := by
  intro s hn
  have hn' : nextInput s = some .reset := hn
  simp only [step, hn']
  rfl

/-- Settles O9: behind the end of the list there is no input, and the step is `wait`. -/
theorem withNoInputNothingChanges : Obligations.WithNoInputNothingChanges := by
  intro s h
  have hn : nextInput s = none := List.getElem?_eq_none h
  simp only [step, hn, wait]

/-- Where the remaining list is a command's frame and some rest, that frame is the next input. -/
theorem nextInput_of_drop {s : State} {x : HostInput} {xs : List HostInput} (h : s.host.drop s.pc = x :: xs) :
    nextInput s = some x := by
  rw [nextInput, ← Nat.add_zero s.pc, ← List.getElem?_drop, h, List.getElem?_cons_zero]

/-- A command with a next state moves the host on by one in the same list (R14). -/
theorem host_pc_of_exec {i : Instr} {s t : State} (h : exec i s = .next t) : t.host = s.host ∧ t.pc = s.pc + 1 := by
  obtain ⟨d, b, rfl, ⟨hpc, hhost, -, -⟩, -⟩ | ⟨e, rfl, -⟩ := exec_accepted_or_rejected h
  · exact ⟨hhost, congrArg (· + 1) hpc⟩
  · exact ⟨rfl, rfl⟩

/-- A run takes a step where the machine has one. -/
theorem core_run_of_next {s t : State} (h : step s = .next t) (k : Nat) :
    Host.Core.run core (k + 1) s = Host.Core.run core k t := by
  have hcore : core.step s = .next t := h
  simp only [Host.Core.run, hcore]

/-- A run stops at the first refusal. -/
theorem core_run_of_refused {s : State} {r : Refusal} (h : step s = .refused r) (k : Nat) :
    Host.Core.run core (k + 1) s = .refused r := by
  have hcore : core.step s = .refused r := h
  simp only [Host.Core.run, hcore]

/-- Settles O10, by induction on the commands: each step runs the first command, and leaves the host in front of the
others. -/
theorem steppingThroughAListIsTheLeftFold : Obligations.SteppingThroughAListIsTheLeftFold := by
  intro is rest
  induction is with
  | nil => intro s _ _; rfl
  | cons i is ih =>
    intro s hwf hdrop
    have hstep : step s = exec i s :=
      step_frame (nextInput_of_drop hdrop) ((decode_eq_ok_iff _ i).mpr ⟨hwf i List.mem_cons_self, rfl⟩)
    rw [List.length_cons, runCommands]
    cases he : exec i s with
    | fault r => cases r
    | refused r => exact core_run_of_refused (hstep.trans he) _
    | next t =>
      obtain ⟨hhost, hpc⟩ := host_pc_of_exec he
      have hdrop' : t.host.drop t.pc = is.map (fun i => .frame (encode i)) ++ rest := by
        rw [hhost, hpc, ← List.tail_drop, hdrop]
        rfl
      rw [core_run_of_next (hstep.trans he)]
      exact ih t (fun j hj => hwf j (List.mem_cons_of_mem i hj)) hdrop'

/-! ## Outcomes of commands -/

/-- Settles O11: an accepted or rejected command adds one response, and the OK responses with a digest are those of
`Answers`. -/
theorem everyCommandGivesOneResponse : Obligations.EveryCommandGivesOneResponse := by
  intro i s t h
  obtain ⟨hhost, hpc⟩ := host_pc_of_exec h
  obtain ⟨d, b, rfl, ⟨-, -, hcfg, hresp⟩, hd⟩ | ⟨e, rfl, -⟩ := exec_accepted_or_rejected h
  · refine ⟨hpc, hhost, hcfg, { status := .ok, rdata := d }, ?_, ?_⟩
    · rw [accepted_responses, hresp]
    · rw [hd, Answers]
      simp
  · exact ⟨hpc, hhost, rfl, _, rfl, by simp⟩

/-- Settles O12 by `exec_completes`. -/
theorem everyAdmittedCommandCompletes : Obligations.EveryAdmittedCommandCompletes :=
  fun _ _ => exec_completes

/-- Settles O13: a refused command is none of those that complete, so it is FINAL of a long message. -/
theorem onlyALongMessageIsRefused : Obligations.OnlyALongMessageIsRefused := by
  intro i s r hwf hr
  have hnext : ¬ ∃ t, exec i s = .next t := by rintro ⟨t, ht⟩; cases ht.symm.trans hr
  have hd : s.DISPOSED = false := by
    by_contra hd
    exact hnext ⟨_, exec_of_disposed (Bool.eq_true_of_not_eq_false hd) i⟩
  have hcond : ¬ (i = .final → s.CNTR.toNat + s.FILL < 2 ^ 61 ∨ s.cfg.longMsg = .wrap) :=
    fun hlong => hnext (exec_completes hwf hlong)
  push Not at hcond
  obtain ⟨rfl, hlong, hwrap⟩ := hcond
  have hcfg : s.cfg.longMsg = .refuse := by
    cases hc : s.cfg.longMsg with
    | wrap => exact absurd hc hwrap
    | refuse => rfl
  refine ⟨?_, hcfg, hd, rfl, hlong⟩
  rw [exec_final_of_long hd hcfg hlong] at hr
  exact (Host.Outcome.refused.inj hr).symm

/-! ## Errors -/

/-- Settles O14: the error is the one that `Raises` lists for the command. -/
theorem onlyTheListedErrorsAreRaised : Obligations.OnlyTheListedErrorsAreRaised := by
  intro i s t r h hr he
  obtain ⟨e, rfl, -, hcause⟩ := exec_rejected_of_error h hr he
  cases e with
  | useAfterDispose => exact .inl ⟨rfl, rfl, hcause⟩
  | invalidArgument => exact .inr (.inl ⟨rfl, rfl, hcause.imp_right fun h => ⟨_, h⟩⟩)
  | illegalState => exact .inr (.inr ⟨rfl, rfl, hcause⟩)

/-- Settles O15: the next state is `rejected`, which moves the host's record and position only. -/
theorem aRejectedCommandChangesNothing : Obligations.ARejectedCommandChangesNothing := by
  intro i s t e d h hr
  obtain ⟨e', hresp, rfl, -⟩ := exec_rejected_of_error h hr (by simp)
  exact ⟨(Response.mk.inj hresp).2, rfl⟩

/-- Settles O16: the causes are those for which `updateInput` is none. -/
theorem invalidArgumentOnExactlyTheListedCauses : Obligations.InvalidArgumentOnExactlyTheListedCauses := by
  intro s hd
  refine ⟨fun buf off cnt => ?_, exec_compute_none hd, ?_⟩
  · rw [← updateInput_eq_none_iff]
    refine ⟨exec_update_of_bad_args hd, fun hin => ?_⟩
    obtain ⟨inp, hin⟩ := Option.ne_none_iff_exists'.mp hin
    exact ⟨_, exec_update_of_input hd hin, by simp⟩
  · intro d t h
    obtain ⟨x, b, rfl, ⟨-, -, -, hresp⟩, hx⟩ | ⟨e, rfl, hcause⟩ := exec_accepted_or_rejected h
    · obtain ⟨x, rfl⟩ := Option.isSome_iff_exists.mp (hx.mpr (.inr (.inl ⟨_, rfl⟩)))
      exact ⟨x, by rw [accepted_responses, hresp]⟩
    · cases e with
      | useAfterDispose => exact absurd (hcause.symm.trans hd) (by decide)
      | invalidArgument => simp [Raises] at hcause
      | illegalState => cases hcause

/-- Settles O17 by `exec_of_disposed`, which holds of every command. -/
theorem aDisposedEngineRejectsEveryCommand : Obligations.ADisposedEngineRejectsEveryCommand :=
  fun i _ hd => exec_of_disposed hd i

/-- Settles O18: such a step waits or rejects. -/
theorem onlyResetLeavesTheDisposedState : Obligations.OnlyResetLeavesTheDisposedState := by
  intro s t hd hreset h
  obtain ⟨-, rfl⟩ | ⟨hn, -⟩ | ⟨f, i, -, -, he⟩ := step_next_cases h
  · rfl
  · exact absurd hn hreset
  · rw [exec_of_disposed hd] at he
    obtain rfl := Host.Outcome.next.inj he
    rfl

/-! ## INIT, DISPOSE, RDDIGEST and FINAL -/

/-- Settles O20: the next state is `initBody` with an OK response. -/
theorem initEffect : Obligations.InitEffect := fun _ hd => exec_init_of_live hd

/-- INIT's body keeps a state whose core is initial and that holds no message and no digest (R106 (b)). -/
theorem initBody_eq_self {s : State} (hcore : CoreInitial s) (hs : s.STREAMING = false) (hv : s.DIGEST_VALID = false)
    (hout : s.DOUT = zeroDigest) : initBody s = s := by
  obtain ⟨hH, hC, hF⟩ := hcore
  cases s
  simp_all [initBody, resetCore]

/-- Settles O21: the invariant says that the core is initial and DOUT zero, so INIT's body changes nothing. -/
theorem initWithNothingBegunChangesNothing : Obligations.InitWithNothingBegunChangesNothing := by
  intro s hinv hd hs hv
  rw [exec_init_of_live hd, initBody_eq_self (hinv.idle_core hs hd) hs hv (hinv.no_digest hv)]
  rfl

/-- Settles O22: the next state is `disposeBody` with an OK response. -/
theorem disposeEffect : Obligations.DisposeEffect := fun _ hd => exec_dispose_of_live hd

/-- Settles O39, clause by clause. -/
theorem rdDigestEffect : Obligations.RdDigestEffect := by
  refine fun s => ⟨fun hd => exec_of_disposed hd _, fun hd hr => ?_, fun hd hs hv => ?_⟩
  · exact exec_rddigest_of_not_readable hd ((digestReadable_eq_false_iff s).mpr hr)
  · exact exec_rddigest_of_readable hd (by rw [digestReadable, hs, hv]; rfl)

/-- Settles O32, clause by clause: the third's next state is `finalBody` with the digest in its response. -/
theorem finalEffect : Obligations.FinalEffect :=
  fun _ => ⟨fun hd => exec_of_disposed hd _, exec_final_of_long,
    fun hd hfit => exec_final_of_live hd (tooLong_eq_false hfit.symm)⟩

/-- Settles O40, by the cases of `exec_next_cases`. -/
theorem commandsWriteOnlyTheirElements : Obligations.CommandsWriteOnlyTheirElements := by
  intro i s t h
  obtain ⟨hd, rfl⟩ | ⟨hd, ⟨rfl, rfl⟩ | ⟨buf, off, cnt, rfl, -, rfl⟩ | ⟨buf, off, cnt, inp, rfl, -, rfl⟩ | ⟨rfl, -, rfl⟩ |
    ⟨rfl, rfl⟩ | ⟨d, rfl, -, rfl⟩ | ⟨rfl, -, rfl⟩ | ⟨rfl, -, rfl⟩ | ⟨rfl, rfl⟩⟩ := exec_next_cases h
  · exact ⟨fun _ => rfl, fun _ => ⟨rfl, rfl⟩, fun _ => rfl, fun hne => absurd rfl hne⟩
  · exact ⟨nofun, nofun, fun _ => rfl, fun hne => absurd rfl hne⟩
  · exact ⟨nofun, fun _ => ⟨rfl, rfl⟩, fun _ => rfl, fun hne => absurd rfl hne⟩
  · exact ⟨nofun, fun _ => ⟨by simp, by simp⟩, nofun, fun hne => absurd (by simp) hne⟩
  · exact ⟨nofun, nofun, fun _ => rfl, fun hne => absurd rfl hne⟩
  · exact ⟨nofun, nofun, fun _ => rfl, fun hne => absurd rfl hne⟩
  · exact ⟨nofun, nofun, nofun, fun hne => absurd (by simp) hne⟩
  · exact ⟨fun _ => rfl, nofun, nofun, fun hne => absurd rfl hne⟩
  · exact ⟨fun _ => rfl, nofun, nofun, fun hne => absurd rfl hne⟩
  · exact ⟨nofun, nofun, nofun, fun _ => ⟨rfl, rfl⟩⟩

end Sys2Proof.Machine
end

section
/-! The invariant of the states a run reaches (R23, R25, R30 to R37). -/

namespace Sys2Proof.Machine

/-- Settles O41: the reset state is one with its core initial and nothing buffered. -/
theorem resetMeetsTheInvariant : Obligations.ResetMeetsTheInvariant where
  fill_lt := by decide
  counter_aligned := by decide
  idle_core _ _ := ⟨rfl, rfl, rfl⟩
  no_digest _ := rfl
  disposed_wiped := nofun
  pc_le := Nat.le_refl 0

/-- Absorbing no bytes changes nothing, CB included (R117 (b)). -/
theorem absorb_nil {s : State} (hf : s.FILL < 64) : absorb s [] = s := by
  obtain h0 | h0 := Nat.eq_zero_or_pos s.FILL
  · have hs : { s with FILL := 0 } = s := by rw [← h0]
    rw [absorb_of_empty h0, absorbAligned_eq, wholeBlocks_of_lt (by simp), tailBytes_of_lt (by simp)]
    simpa using hs
  · rw [absorb_of_short h0 (by simpa using hf), appendCarry]
    simp

/-- The bytes UPDATE's body leaves buffered: those behind the whole blocks (R117 (a)). -/
theorem updateBody_buffered_eq_tail {s : State} (hf : s.FILL ≤ 64) (inp : List Byte) :
    buffered (updateBody s inp) = tailBytes (buffered s ++ inp) := by
  obtain ⟨-, -, -, hb⟩ := absorb_closed_form s inp hf
  rw [updateBody_buffered, hb]

/-- UPDATE leaves STREAMING clear only where it took no bytes and found it clear (R116). -/
theorem streamingAfterUpdate_eq_false {cfg : Config} {n : Nat} {old : Bool}
    (h : streamingAfterUpdate cfg n old = false) : n = 0 ∧ old = false := by
  unfold streamingAfterUpdate at h
  split at h
  · cases h
  · exact ⟨by omega, h⟩

/-- INIT's body on a live engine leaves the invariant. -/
theorem inv_initBody {s : State} (hd : s.DISPOSED = false) (hpc : s.pc ≤ s.host.length) : Inv (initBody s) where
  fill_lt := by simp
  counter_aligned := by simp
  idle_core _ _ := ⟨rfl, rfl, rfl⟩
  no_digest _ := rfl
  disposed_wiped hd' := absurd (hd.symm.trans hd') (by decide)
  pc_le := hpc

/-- FINAL's body on a live engine leaves the invariant. -/
theorem inv_finalBody {s : State} (hd : s.DISPOSED = false) (hpc : s.pc ≤ s.host.length) : Inv (finalBody s) where
  fill_lt := by simp
  counter_aligned := by simp
  idle_core _ _ := ⟨rfl, rfl, rfl⟩
  no_digest := nofun
  disposed_wiped hd' := absurd (hd.symm.trans hd') (by decide)
  pc_le := hpc

/-- DISPOSE's body leaves the invariant. -/
theorem inv_disposeBody {s : State} (hpc : s.pc ≤ s.host.length) : Inv (disposeBody s) where
  fill_lt := by simp
  counter_aligned := by simp
  idle_core _ := nofun
  no_digest _ := rfl
  disposed_wiped _ := ⟨rfl, rfl, rfl, rfl, rfl, rfl, rfl⟩
  pc_le := hpc

/-- UPDATE's body on a live engine keeps the invariant. -/
theorem Inv.updateBody {s : State} (h : Inv s) (hd : s.DISPOSED = false) (inp : List Byte) :
    Inv (updateBody s inp) := by
  obtain ⟨-, hC, hF, -⟩ := absorb_closed_form s inp h.fill_lt.le
  have hctr := h.counter_aligned
  constructor
  case fill_lt => rw [updateBody_FILL, hF]; omega
  case counter_aligned =>
    rw [updateBody_CNTR, hC, BitVec.toNat_add, BitVec.toNat_ofNat]
    omega
  case idle_core =>
    intro hs _
    obtain ⟨hlen, hold⟩ := streamingAfterUpdate_eq_false hs
    obtain rfl := List.eq_nil_of_length_eq_zero hlen
    rw [CoreInitial, updateBody_H, updateBody_CNTR, updateBody_FILL, absorb_nil h.fill_lt]
    exact h.idle_core hold hd
  case no_digest => simpa using h.no_digest
  case disposed_wiped => simp [hd]
  case pc_le => simpa using h.pc_le

/-- A command's response keeps the invariant where the host had a next input. -/
theorem Inv.respond {s : State} (h : Inv s) (hpc : s.pc < s.host.length) (r : Response) : Inv (respond r s) :=
  { h with pc_le := hpc }

/-- Hardware reset leaves the invariant (R230). -/
theorem inv_hardwareReset (s : State) : Inv (hardwareReset s) :=
  { resetMeetsTheInvariant with pc_le := Nat.zero_le _ }

/-- Every command keeps the invariant. -/
theorem Inv.exec {s t : State} (hinv : Inv s) (hpc : s.pc < s.host.length) {i : Instr} (h : exec i s = .next t) : Inv t := by
  obtain ⟨hd, rfl⟩ | ⟨hd, ⟨rfl, rfl⟩ | ⟨buf, off, cnt, rfl, -, rfl⟩ | ⟨buf, off, cnt, inp, rfl, -, rfl⟩ | ⟨rfl, -, rfl⟩ |
    ⟨rfl, rfl⟩ | ⟨d, rfl, -, rfl⟩ | ⟨rfl, -, rfl⟩ | ⟨rfl, -, rfl⟩ | ⟨rfl, rfl⟩⟩ := exec_next_cases h
  · exact hinv.respond hpc _
  · exact (inv_initBody hd hpc.le).respond hpc _
  · exact hinv.respond hpc _
  · exact (hinv.updateBody hd inp).respond (by simpa using hpc) _
  · exact (inv_finalBody hd hpc.le).respond hpc _
  · exact hinv.respond hpc _
  · exact (inv_finalBody (by simpa using hd) (by simpa using hpc.le)).respond (by simpa using hpc) _
  · exact hinv.respond hpc _
  · exact hinv.respond hpc _
  · exact (inv_disposeBody hpc.le).respond hpc _

/-- Settles O42: waiting keeps the state, reset leaves the invariant, and commands keep it by `Inv.exec`. -/
theorem everyStepKeepsTheInvariant : Obligations.EveryStepKeepsTheInvariant := by
  intro s t hinv h
  obtain ⟨-, rfl⟩ | ⟨-, rfl⟩ | ⟨f, i, hn, -, he⟩ := step_next_cases h
  · exact hinv
  · exact inv_hardwareReset s
  · obtain ⟨hpc, -⟩ := List.getElem?_eq_some_iff.mp hn
    exact hinv.exec hpc he

end Sys2Proof.Machine
end

section
/-! The bytes `CB[FILL..63]` never show (R27). -/

namespace Sys2Proof.Machine

/-- Two states that differ in stale bytes only: the second is the first with another CarryBuffer, equal below FILL. -/
theorem sameButStale_iff (s t : State) :
    SameButStale s t ↔ ∃ cb, t = { s with CB := cb } ∧ buffered s = buffered { s with CB := cb } := by
  constructor
  · rintro ⟨ht, hb⟩
    exact ⟨t.CB, ht.symm, by rw [ht, hb]⟩
  · rintro ⟨cb, rfl, hb⟩
    exact ⟨rfl, hb⟩

theorem SameButStale.refl (s : State) : SameButStale s s := ⟨rfl, rfl⟩

section Bodies

variable {s t : State} (h : SameButStale s t)
include h

/-- Where the CarryBuffer is full, or fuller than it can be, no byte of it is stale. -/
theorem SameButStale.eq_of_full (hf : 64 ≤ s.FILL) : s = t := by
  obtain ⟨cb, rfl, hb⟩ := (sameButStale_iff s t).mp h
  have hcb : s.CB = cb := block_ext (by simpa [buffered, List.take_of_length_le, hf] using hb)
  rw [← hcb]

theorem SameButStale.finalDigest_eq : finalDigest s = finalDigest t := by
  obtain ⟨cb, rfl, hb⟩ := (sameButStale_iff s t).mp h
  rw [finalDigest, hb]
  rfl

theorem SameButStale.respond (r : Response) : SameButStale (respond r s) (respond r t) := by
  obtain ⟨cb, rfl, hb⟩ := (sameButStale_iff s t).mp h
  exact ⟨rfl, hb⟩

theorem SameButStale.initBody : SameButStale (initBody s) (initBody t) := by
  obtain ⟨cb, rfl, -⟩ := (sameButStale_iff s t).mp h
  exact ⟨rfl, by simp [buffered]⟩

theorem SameButStale.finalBody : SameButStale (finalBody s) (finalBody t) := by
  rw [Machine.finalBody, Machine.finalBody, h.finalDigest_eq]
  obtain ⟨cb, rfl, -⟩ := (sameButStale_iff s t).mp h
  exact ⟨rfl, by simp [buffered]⟩

theorem SameButStale.disposeBody : SameButStale (disposeBody s) (disposeBody t) := by
  obtain ⟨cb, rfl, -⟩ := (sameButStale_iff s t).mp h
  exact ⟨rfl, rfl⟩

/-- UPDATE's body reads the CarryBuffer below FILL only, by its closed form. -/
theorem SameButStale.updateBody (inp : List Byte) : SameButStale (updateBody s inp) (updateBody t inp) := by
  obtain hf | hf := Nat.le_or_le 64 s.FILL
  · rw [h.eq_of_full hf]
    exact .refl _
  · obtain ⟨cb, rfl, hb⟩ := (sameButStale_iff s t).mp h
    constructor
    · rw [updateBody_eq s inp hf, updateBody_eq { s with CB := cb } inp hf, hb]
    · rw [updateBody_buffered_eq_tail hf, updateBody_buffered_eq_tail (s := { s with CB := cb }) hf, hb]

end Bodies

theorem SameButStale.finalize {s t : State} (h : SameButStale s t) :
    SameOutcome SameButStale (finalize s) (finalize t) := by
  have hcfg : t.cfg = s.cfg := by rw [← h.1]
  have htotal : totalBytes t = totalBytes s := by rw [← h.1]; rfl
  have hfit : tooLong t.cfg (totalBytes t) = tooLong s.cfg (totalBytes s) := by rw [hcfg, htotal]
  cases hl : tooLong s.cfg (totalBytes s) with
  | true =>
    rw [finalize_of_tooLong hl, finalize_of_tooLong (hfit.trans hl)]
    rfl
  | false =>
    rw [finalize_of_fits hl, finalize_of_fits (hfit.trans hl), h.finalDigest_eq]
    exact h.finalBody.respond _

/-- No command shows the stale bytes. -/
theorem SameButStale.exec {s t : State} (h : SameButStale s t) (i : Instr) :
    SameOutcome SameButStale (exec i s) (exec i t) := by
  have hdis : t.DISPOSED = s.DISPOSED := by rw [← h.1]
  cases hd : s.DISPOSED with
  | true =>
    rw [exec_of_disposed hd, exec_of_disposed (hdis.trans hd)]
    exact h.respond _
  | false =>
    have hd' := hdis.trans hd
    cases i with
    | init =>
      rw [exec_init_of_live hd, exec_init_of_live hd']
      exact h.initBody.respond _
    | update buf off cnt =>
      cases hin : updateInput buf off cnt with
      | none =>
        rw [exec_update_of_bad_args hd hin, exec_update_of_bad_args hd' hin]
        exact h.respond _
      | some inp =>
        rw [exec_update_of_input hd hin, exec_update_of_input hd' hin]
        exact (h.updateBody inp).respond _
    | final =>
      simp only [Machine.exec, execFinal, unlessDisposed_of_live hd, unlessDisposed_of_live hd']
      exact h.finalize
    | compute buf =>
      simp only [Machine.exec, execCompute, unlessDisposed_of_live hd, unlessDisposed_of_live hd']
      cases buf with
      | none => exact h.respond _
      | some d => exact (h.initBody.updateBody d).finalize
    | rddigest =>
      have hread : digestReadable t = digestReadable s := by rw [← h.1]; rfl
      have hout : t.DOUT = s.DOUT := by rw [← h.1]
      cases hr : digestReadable s with
      | true =>
        rw [exec_rddigest_of_readable hd hr, exec_rddigest_of_readable hd' (hread.trans hr), hout]
        exact h.respond _
      | false =>
        rw [exec_rddigest_of_not_readable hd hr, exec_rddigest_of_not_readable hd' (hread.trans hr)]
        exact h.respond _
    | dispose =>
      rw [exec_dispose_of_live hd, exec_dispose_of_live hd']
      exact h.disposeBody.respond _

/-- Settles O43: the next input and its decoding do not depend on CB, and the command it spells keeps the relation by
`SameButStale.exec`. -/
theorem staleCarryBytesNeverShow : Obligations.StaleCarryBytesNeverShow := by
  intro s t h
  have hn : nextInput t = nextInput s := by rw [← h.1]; rfl
  rw [step, step, hn]
  cases nextInput s with
  | none => exact h
  | some x =>
    cases x with
    | reset =>
      obtain ⟨cb, rfl, -⟩ := (sameButStale_iff s t).mp h
      exact .refl _
    | frame f =>
      dsimp only
      cases decode f with
      | error why => rfl
      | ok i => exact h.exec i

end Sys2Proof.Machine
end

section
/-! Messages fed in pieces, and the digest as a function of the whole message (R102 to R104, R117 to R131). -/

namespace Sys2Proof.Machine

/-! ## Blocks -/

/-- Settles O26, by induction on the block's number. -/
theorem wholeBlocksAreTheSlices : Obligations.WholeBlocksAreTheSlices := by
  refine fun bs => ⟨wholeBlocks_length bs, fun j hj => ?_⟩
  have hj' : j < bs.length / 64 := wholeBlocks_length bs ▸ hj
  have hle : 64 ≤ bs.length := by omega
  induction j generalizing bs with
  | zero => simp [wholeBlocks_of_le hle]
  | succ j ih =>
    simp only [wholeBlocks_of_le hle, List.getElem_cons_succ]
    have hdrop : j < (bs.drop 64).length / 64 := by rw [List.length_drop]; omega
    rw [ih (bs.drop 64) (by simpa using hdrop) hdrop (by omega), List.drop_drop, Nat.mul_succ, Nat.add_comm 64]

/-! ## UPDATE -/

/-- The bytes of an accepted range are as many as CNT says (R51). -/
theorem hostBytes_length_of_args {d : List Byte} {off cnt : Word} (hoff : 0 ≤ off.toInt) (hcnt : 0 ≤ cnt.toInt)
    (hlen : off.toInt + cnt.toInt ≤ d.length) :
    (hostBytes d off.toInt.toNat cnt.toInt.toNat).length = cnt.toInt.toNat :=
  hostBytes_length (by omega)

/-- Settles O24: `updateBody_eq` is the closed form, and the bytes behind the whole blocks are `updateBody_buffered_eq_tail`'s. -/
theorem updateClosedForm : Obligations.UpdateClosedForm := by
  intro s d off cnt hf hd hoff hcnt hlen
  have hn := hostBytes_length_of_args hoff hcnt hlen
  refine ⟨_, exec_update_of_live hd hoff hcnt hlen, updateBody_buffered_eq_tail hf.le _, ?_⟩
  have hall : (s.CB.toList.take s.FILL ++ hostBytes d off.toInt.toNat cnt.toInt.toNat).length =
      s.FILL + (hostBytes d off.toInt.toNat cnt.toInt.toNat).length := by
    rw [List.length_append, ← buffered, buffered_length hf.le]
  have hpos : 0 < (hostBytes d off.toInt.toNat cnt.toInt.toNat).length ↔ 0 < cnt.toInt := by omega
  rw [← hostBytes, hall, updateBody_eq s _ hf.le, streamingAfterUpdate]
  simp only [hpos]
  rfl

/-- Settles O25: the range has no bytes, and absorbing none changes nothing by `absorb_nil`. -/
theorem anUpdateOfNoBytesOnlySetsStreaming : Obligations.AnUpdateOfNoBytesOnlySetsStreaming := by
  intro s d off hf hd hoff hlen
  have hnil : hostBytes d off.toInt.toNat (0 : Word).toInt.toNat = [] := List.take_zero
  rw [exec_update_of_live hd hoff (by decide) (by simpa using hlen), hnil, updateBody, absorb_nil hf]
  cases hz : s.cfg.zlStreaming <;> simp [accepted, streamingAfterUpdate, hz]

/-! ## Feeding a message -/

/-- The engine in `t` is the engine in `s` after the message bytes `m`, by the closed form of R117 (a). -/
structure Absorbed (s : State) (m : List Byte) (t : State) : Prop where
  H : t.H = compressAll s.H (wholeBlocks (buffered s ++ m))
  CNTR : t.CNTR = s.CNTR + BitVec.ofNat 64 (64 * ((s.FILL + m.length) / 64))
  FILL : t.FILL = (s.FILL + m.length) % 64
  buffered : buffered t = tailBytes (buffered s ++ m)
  DISPOSED : t.DISPOSED = s.DISPOSED
  cfg : t.cfg = s.cfg

/-- UPDATE's body absorbs its bytes. -/
theorem absorbed_updateBody {s : State} (hf : s.FILL ≤ 64) (inp : List Byte) : Absorbed s inp (updateBody s inp) := by
  obtain ⟨hH, hC, hF, -⟩ := absorb_closed_form s inp hf
  exact ⟨hH, hC, hF, updateBody_buffered_eq_tail hf inp, by simp, by simp⟩

/-- A response does not touch what was absorbed. -/
theorem Absorbed.accepted {s t : State} {m : List Byte} (h : Absorbed s m t) (d : Option Digest) :
    Absorbed s m (accepted d t) := ⟨h.H, h.CNTR, h.FILL, h.buffered, h.DISPOSED, h.cfg⟩

/-- Nothing absorbed yet. -/
theorem Absorbed.refl {s : State} (hf : s.FILL < 64) : Absorbed s [] s := by
  have hb : (Machine.buffered s).length < 64 := by rwa [buffered_length hf.le]
  constructor
  case H => rw [List.append_nil, wholeBlocks_of_lt hb, compressAll_nil]
  case CNTR => simp [Nat.div_eq_of_lt hf]
  case FILL => simp [Nat.mod_eq_of_lt hf]
  case buffered => rw [List.append_nil, tailBytes_of_lt hb]
  case DISPOSED => rfl
  case cfg => rfl

/-- Absorbing goes on from where it stopped (R118). -/
theorem Absorbed.trans {s t u : State} {m n : List Byte} (h : Absorbed s m t) (h' : Absorbed t n u) :
    Absorbed s (m ++ n) u := by
  constructor
  case H => rw [h'.H, h.H, h.buffered, ← compressAll_append, ← wholeBlocks_append, List.append_assoc]
  case CNTR =>
    rw [h'.CNTR, h.CNTR, h.FILL, List.length_append, BitVec.add_assoc, ← BitVec.ofNat_add]
    congr 2
    omega
  case FILL => rw [h'.FILL, h.FILL, List.length_append]; omega
  case buffered => rw [h'.buffered, h.buffered, ← tailBytes_append, List.append_assoc]
  case DISPOSED => rw [h'.DISPOSED, h.DISPOSED]
  case cfg => rw [h'.cfg, h.cfg]

/-- What was absorbed depends on the bytes only. -/
theorem Absorbed.messageState_eq {s t u : State} {m : List Byte} (h : Absorbed s m t) (h' : Absorbed s m u) :
    messageState t = messageState u := by
  rw [messageState, messageState, h.H, h.CNTR, h.FILL, h.buffered, h'.H, h'.CNTR, h'.FILL, h'.buffered]

/-- UPDATE of a whole buffer, on a live engine, completes with its bytes absorbed (R83). -/
theorem exec_wholeUpdate {s : State} {d : List Byte} (hd : s.DISPOSED = false) (hlen : d.length < 2 ^ 31) :
    exec (wholeUpdate d) s = .next (accepted none (updateBody s d)) := by
  have hcnt : (BitVec.ofNat 32 d.length).toInt = d.length := by
    have hnat := toNat_ofNat_length (bs := d) (by omega)
    rw [BitVec.toInt_eq_toNat_of_lt (by omega), hnat]
  have hin : updateInput (some d) 0 (BitVec.ofNat 32 d.length) = some d :=
    (updateInput_eq_some_iff _ _ _ _).mpr ⟨d, rfl, by decide, by rw [sext32, hcnt]; omega, by simp [sext32, hcnt],
      by simp [sext32, hcnt, hostBytes]⟩
  exact exec_update_of_input hd hin

/-- Runs one after the other. -/
theorem runCommands_append {is : List Instr} {s t : State} (h : runCommands is s = .next t) (js : List Instr) :
    runCommands (is ++ js) s = runCommands js t := by
  induction is generalizing s with
  | nil => rw [List.nil_append, Host.Outcome.next.inj h]
  | cons i is ih =>
    rw [runCommands] at h
    cases he : exec i s with
    | next u => rw [he] at h; rw [List.cons_append, runCommands_cons he, ih h]
    | fault r => cases r
    | refused r => rw [he] at h; cases h

/-- A live engine takes any pieces that fit, and has then absorbed their concatenation (R118). -/
theorem runCommands_feedPieces {ps : List (List Byte)} {s : State} (hf : s.FILL < 64) (hd : s.DISPOSED = false)
    (hfit : piecesFit ps) : ∃ t, runCommands (feedPieces ps) s = .next t ∧ Absorbed s ps.flatten t := by
  induction ps generalizing s with
  | nil => exact ⟨s, rfl, .refl hf⟩
  | cons p ps ih =>
    have hp : Absorbed s p (accepted none (updateBody s p)) := (absorbed_updateBody hf.le p).accepted none
    obtain ⟨t, hrun, ht⟩ := ih (by rw [hp.FILL]; omega) (hp.DISPOSED.trans hd)
      (fun q hq => hfit q (List.mem_cons_of_mem p hq))
    exact ⟨t, (runCommands_cons (exec_wholeUpdate hd (hfit p List.mem_cons_self)) _).trans hrun, hp.trans ht⟩

/-- Settles O27: both ways absorb the same bytes. -/
theorem chunkBoundariesDoNotMatter : Obligations.ChunkBoundariesDoNotMatter := by
  intro s ps qs hf hd hps hqs heq
  obtain ⟨t, ht, hat⟩ := runCommands_feedPieces hf hd hps
  obtain ⟨u, hu, hau⟩ := runCommands_feedPieces hf hd hqs
  exact ⟨t, u, ht, hu, hat.messageState_eq (heq ▸ hau)⟩

/-- An initial core has room in its CarryBuffer. -/
theorem CoreInitial.fill_lt {s : State} (h : CoreInitial s) : s.FILL < 64 := by
  obtain ⟨-, -, hF⟩ := h
  rw [hF]
  decide

/-- An initial core has nothing buffered. -/
theorem CoreInitial.buffered_eq {s : State} (h : CoreInitial s) : buffered s = [] := by
  obtain ⟨-, -, hF⟩ := h
  rw [buffered, hF, List.take_zero]

/-- The count of the bytes absorbed from an initial core, CNTR modulo 2^64 (R23, R25). -/
theorem Absorbed.total {s t : State} {m : List Byte} (hcore : CoreInitial s) (h : Absorbed s m t) :
    t.FILL = m.length % 64 ∧ t.CNTR.toNat = 64 * (m.length / 64) % 2 ^ 64 := by
  obtain ⟨-, hC, hF⟩ := hcore
  exact ⟨by rw [h.FILL, hF, Nat.zero_add], by rw [h.CNTR, hC, hF, Nat.zero_add]; simp⟩

/-- Settles O28: the counts of `Absorbed.total`, added up. -/
theorem byteCounterAndFillCountTheMessage : Obligations.ByteCounterAndFillCountTheMessage := by
  intro s ps hcore hd hfit
  obtain ⟨t, hrun, ht⟩ := runCommands_feedPieces hcore.fill_lt hd hfit
  obtain ⟨hF, hC⟩ := ht.total hcore
  exact ⟨t, hrun, by omega, by omega, by omega⟩

/-! ## Padding and the digest -/

/-- Settles O34 by the arithmetic of `zeroPad` modulo 64. -/
theorem zeroPaddingIsTheLeast : Obligations.ZeroPaddingIsTheLeast := by
  unfold Obligations.ZeroPaddingIsTheLeast zeroPad
  omega

/-- The value that bytes give, most significant first. -/
theorem foldl_be32 (a : Nat) (w : Word) :
    (be32 w).foldl (fun a b => 256 * a + b.toNat) a = 2 ^ 32 * a + w.toNat := by
  have := w.isLt
  simp only [be32_eq_ofNat, List.foldl_cons, List.foldl_nil, BitVec.toNat_ofNat]
  omega

/-- The 8 bytes of a counter give its value (R54). -/
theorem foldl_be64 (x : BitVec 64) : (be64 x).foldl (fun a b => 256 * a + b.toNat) 0 = x.toNat := by
  have := x.isLt
  rw [be64, List.foldl_append, foldl_be32, foldl_be32, BitVec.extractLsb'_toNat, BitVec.extractLsb'_toNat,
    Nat.shiftRight_eq_div_pow, Nat.shiftRight_zero]
  omega

/-- Settles O30: the last 8 bytes are `be64` of the bit length. -/
theorem lengthFieldIsBigEndian : Obligations.LengthFieldIsBigEndian := by
  intro tail total
  have hlast : (padTail tail total).drop ((padTail tail total).length - 8) = be64 (bitLength total) := by
    rw [padTail, List.length_append, be64_length, Nat.add_sub_cancel, List.drop_left]
  rw [hlast, foldl_be64, bitLength, BitVec.toNat_ofNat]

/-- The padding of a whole message has as many zeros as that of its tail (R102, R104). -/
theorem zeroPad_eq_padCount (n : Nat) : zeroPad n = padCount (n % 64) - 1 := by
  rw [padCount_eq (Nat.mod_lt n (by decide)), zeroPad]
  split <;> omega

/-- The whole message's padding is its tail's: the blocks of the padded message are those of the message, then those of the
padded tail. -/
theorem wholeBlocks_paddedMessage (m : List Byte) :
    wholeBlocks (paddedMessage m) = wholeBlocks m ++ wholeBlocks (padTail (tailBytes m) m.length) := by
  rw [paddedMessage, padTail, tailBytes_length, zeroPad_eq_padCount]
  simp only [List.append_assoc]
  rw [wholeBlocks_append]

/-- FINAL's digest of a message absorbed from an initial core is the message's SHA-1 (R104, R123 to R126). -/
theorem Absorbed.finalDigest_eq {s t : State} {m : List Byte} (hcore : CoreInitial s) (h : Absorbed s m t)
    (hlen : m.length < 2 ^ 61) : finalDigest t = sha1 m := by
  obtain ⟨hF, hC⟩ := h.total hcore
  have htotal : totalBytes t = m.length := by rw [totalBytes, hF, hC]; omega
  rw [finalDigest, sha1, wholeBlocks_paddedMessage, compressAll_append, h.buffered, htotal, h.H, hcore.1,
    hcore.buffered_eq, List.nil_append]

/-- FINAL is never refused for a message of fewer than 2^61 bytes absorbed from an initial core (R122). -/
theorem Absorbed.not_tooLong {s t : State} {m : List Byte} (hcore : CoreInitial s) (h : Absorbed s m t)
    (hlen : m.length < 2 ^ 61) : tooLong t.cfg (totalBytes t) = false := by
  obtain ⟨hF, hC⟩ := h.total hcore
  exact tooLong_eq_false (.inl (by rw [totalBytes, hF, hC]; omega))

/-- Settles O35: after the pieces, FINAL completes with the digest of `Absorbed.finalDigest_eq`. -/
theorem theDigestIsSha1OfTheMessage : Obligations.TheDigestIsSha1OfTheMessage := by
  intro s ps hcore hd hfit hlen
  obtain ⟨t, hrun, ht⟩ := runCommands_feedPieces hcore.fill_lt hd hfit
  have hfinal := exec_final_of_live (ht.DISPOSED.trans hd) (ht.not_tooLong hcore hlen)
  have hdigest := ht.finalDigest_eq hcore hlen
  refine ⟨_, (runCommands_append hrun _).trans (runCommands_cons hfinal _), ?_, rfl, ?_⟩
  · rw [accepted_DOUT, finalBody_DOUT, hdigest]
  · rw [accepted_responses, List.getLast?_concat, hdigest]

/-- Settles O36: FINAL leaves an initial core, from which the message gets the same digest as from reset. -/
theorem anEngineIsReusableAfterFinal : Obligations.AnEngineIsReusableAfterFinal := by
  intro s ps hd hlong hfit hlen
  have hfinal := exec_final_of_live hd (tooLong_eq_false hlong.symm)
  obtain ⟨t, hrun, ht, -, -⟩ := theDigestIsSha1OfTheMessage _ ps
    (show CoreInitial (accepted (some (finalDigest s)) (finalBody s)) from ⟨rfl, rfl, rfl⟩) hd hfit hlen
  obtain ⟨u, hrun', hu, -, -⟩ := theDigestIsSha1OfTheMessage State.reset ps ⟨rfl, rfl, rfl⟩ rfl hfit hlen
  exact ⟨t, u, (runCommands_cons hfinal _).trans hrun, hrun', ht.trans hu.symm⟩

/-- The digest of the empty message (95_test_vectors.md, L1-1). -/
theorem sha1_nil : (sha1 []).toList = [0xda, 0x39, 0xa3, 0xee, 0x5e, 0x6b, 0x4b, 0x0d, 0x32, 0x55, 0xbf, 0xef, 0x95, 0x60,
    0x18, 0x90, 0xaf, 0xd8, 0x07, 0x09] := by
  decide +kernel

/-- Settles O33: nothing has been absorbed, so the digest is that of the empty message. -/
theorem finalOfNothingIsTheEmptyDigest : Obligations.FinalOfNothingIsTheEmptyDigest := by
  intro s hcore hd
  have hs : Absorbed s [] s := .refl hcore.fill_lt
  refine ⟨_, exec_final_of_live hd (hs.not_tooLong hcore (by decide)), ?_, rfl⟩
  rw [accepted_DOUT, finalBody_DOUT, hs.finalDigest_eq hcore (by decide), sha1_nil]

/-! ## COMPUTE -/

/-- COMPUTE's digest is the SHA-1 of its buffer (R131). -/
theorem finalDigest_updateBody_initBody (s : State) {d : List Byte} (hlen : d.length < 2 ^ 61) :
    finalDigest (updateBody (initBody s) d) = sha1 d :=
  (absorbed_updateBody (s := initBody s) (by simp) d).finalDigest_eq ⟨rfl, rfl, rfl⟩ hlen

/-- FINAL's body behind UPDATE's and INIT's: of the engine's state, only what COMPUTE is to write differs (R131). -/
theorem finalBody_updateBody_initBody (s : State) {d : List Byte} (hlen : d.length < 2 ^ 61) :
    finalBody (updateBody (initBody s) d) =
      { s with
        H := iv, CNTR := 0, CB := (updateBody (initBody s) d).CB, FILL := 0, STREAMING := false, DIGEST_VALID := true
        DOUT := sha1 d } := by
  rw [finalBody, finalDigest_updateBody_initBody s hlen]
  simp [resetCore]

/-- Settles O37, clause by clause. -/
theorem computeGivesSha1OfItsBuffer : Obligations.ComputeGivesSha1OfItsBuffer := by
  refine fun s => ⟨fun _ hd => exec_of_disposed hd _, exec_compute_none, fun d hd hlen => ?_⟩
  refine ⟨_, exec_compute_some hd hlen, ?_⟩
  rw [finalDigest_updateBody_initBody s (by omega), finalBody_updateBody_initBody s (by omega)]
  rfl

/-- UPDATE's body does not read the host's record or position; said here for an empty CarryBuffer, as INIT leaves it. -/
theorem updateBody_accepted {s : State} (hf : s.FILL = 0) (x : Option Digest) (inp : List Byte) :
    updateBody (accepted x s) inp = accepted x (updateBody s inp) := by
  rw [updateBody, updateBody, absorb_of_empty hf, absorb_of_empty (s := accepted x s) hf]
  rfl

/-- Settles O38: the three commands of HASH are COMPUTE's three bodies, with two responses more. -/
theorem hashDoesWhatComputeDoes : Obligations.HashDoesWhatComputeDoes := by
  intro s d hd hlen
  have hlive : (accepted none (initBody s)).DISPOSED = false := hd
  have hm := (absorbed_updateBody (s := accepted none (initBody s)) (by simp) d).accepted none
  have hfinal := exec_final_of_live (hm.DISPOSED.trans hlive) (hm.not_tooLong ⟨rfl, rfl, rfl⟩ (by omega))
  refine ⟨_, _, (runCommands_cons (exec_init_of_live hd) _).trans ((runCommands_cons (exec_wholeUpdate hlive hlen) _).trans
    (runCommands_cons hfinal _)), exec_compute_some hd (by omega), ?_, ?_⟩
  · rw [updateBody_accepted (initBody_FILL s)]
    rfl
  · rw [updateBody_accepted (initBody_FILL s), accepted_responses, accepted_responses, List.getLast?_concat,
      List.getLast?_concat]
    rfl

end Sys2Proof.Machine
end

section
/-! Proofs about the whole compressor (R150 to R162) and its mixing functions (R154, R156). -/

namespace Sys2Proof.Machine

/-! ## Eighty rounds -/

/-- The working variables of a block's compression after its first `t` rounds. -/
def workingAt (H : DigestState) (blk : Block) (t : Nat) : Working :=
  rounds 0 ((schedule blk).take t) (Working.start H)

/-- Rounds over a list of words and one word more. -/
theorem rounds_concat (t : Nat) (ws : List Word) (w : Word) (v : Working) :
    rounds t (ws ++ [w]) v = roundStep (t + ws.length) w (rounds t ws v) := by
  induction ws generalizing t v with
  | nil => rfl
  | cons x xs ih =>
    rw [List.cons_append, rounds, rounds, ih, List.length_cons, Nat.add_assoc, Nat.add_comm 1]

/-- Each round takes the next schedule word (R158). -/
theorem workingAt_succ (H : DigestState) (blk : Block) {t : Nat} (ht : t < 80) :
    workingAt H blk (t + 1) = roundStep t ((schedule blk).getD t 0) (workingAt H blk t) := by
  have hlen : t < (schedule blk).length := by rwa [schedule_length]
  have hmin : ((schedule blk).take t).length = t := List.length_take_of_le hlen.le
  rw [workingAt, List.take_succ_eq_append_getElem hlen, rounds_concat, hmin, Nat.zero_add, workingAt,
    List.getD_eq_getElem _ _ hlen]

/-- Settles O46: the working variables are `workingAt`, whose 80 words are the whole schedule. -/
theorem compressIsEightyRoundsAndFeedForward : Obligations.CompressIsEightyRoundsAndFeedForward := by
  refine fun H blk => ⟨workingAt H blk, rfl, fun t => workingAt_succ H blk, ?_⟩
  rw [compress, workingAt, List.take_of_length_le (schedule_length blk).le]
  rfl

/-! ## The rolling window -/

/-- The expansion reads the last 16 words only, and keeps what stands before them. -/
theorem expand_append (n : Nat) {w : List Word} (hw : 16 ≤ w.length) (old : List Word) :
    expand n (w ++ old) = expand n w ++ old := by
  induction n generalizing w with
  | zero => rfl
  | succ n ih =>
    have hstep : expandStep (w ++ old) = expandStep w ++ old := by
      simp (disch := omega) only [expandStep, List.getD_append, List.cons_append]
    rw [expand, expand, hstep, ih (by rw [expandStep, List.length_cons]; omega)]

/-- Expanding in two goes. -/
theorem expand_add (m n : Nat) (w : List Word) : expand (m + n) w = expand n (expand m w) := by
  induction m generalizing w with
  | zero => rw [Nat.zero_add, expand]
  | succ m ih => rw [Nat.succ_add, expand, expand, ih]

/-- The word that enters a window of 16 is the recurrence's next (R152). -/
theorem nextWord_eq_recurrenceWord (win : List Word) : nextWord win = recurrenceWord win 16 := by
  rw [nextWord, rotl_eq_rotateLeft (by decide), recurrenceWord]

/-- The schedule words in order, from a window of 16, oldest first: the oldest word, then those from the next window. -/
theorem expand_window (n : Nat) (x : Word) {win : List Word} (hw : win.length = 15) :
    (expand (n + 1) (x :: win).reverse).reverse =
      x :: (expand n (win ++ [nextWord (x :: win)]).reverse).reverse := by
  have hlen : (x :: win).reverse.length = 16 := by simp [hw]
  have hstep : expandStep (x :: win).reverse = (win ++ [nextWord (x :: win)]).reverse ++ [x] := by
    rw [← List.reverse_inj, expandStep_reverse hlen.ge, hlen, List.reverse_reverse, nextWord_eq_recurrenceWord]
    simp
  rw [expand, hstep, expand_append n (by simp [hw]), List.reverse_append, List.reverse_singleton, List.singleton_append]

/-- Rolling rounds over a window are the rounds over the words that the window expands to (R161). -/
theorem rollingRounds_eq_rounds (n t : Nat) {win : List Word} (hw : win.length = 16) (v : Working) :
    rollingRounds n t win v = rounds t ((expand n win.reverse).reverse.take n) v := by
  induction n generalizing t win v with
  | zero => rfl
  | succ n ih =>
    obtain _ | ⟨x, win⟩ := win
    · cases hw
    · have hw' : win.length = 15 := Nat.succ.inj hw
      rw [expand_window n x hw', List.take_succ_cons, rounds, rollingRounds, List.tail_cons, ih _ (by simp [hw'])]
      rfl

/-- Settles O47: the 80 words that the first window expands to are the schedule. -/
theorem aRollingScheduleIsTheSameCompressor : Obligations.ARollingScheduleIsTheSameCompressor := by
  intro H blk
  have hpre : schedule blk <+: (expand 80 (wordsOf blk.toList).reverse).reverse := by
    rw [expand_add 64 16]
    exact reverse_prefix_expand_reverse 16 _
  have hwords : (expand 80 (wordsOf blk.toList).reverse).reverse.take 80 = schedule blk := by
    rw [List.prefix_iff_eq_take.mp hpre, schedule_length]
  rw [compressRolling, rollingRounds_eq_rounds _ _ (wordsOf_block_length blk), hwords, compress]

/-! ## The mixing functions -/

/-- The two terms of the choose function never share a bit (R154). -/
theorem choose_terms_disjoint (b c d : Word) : (b &&& c) &&& (~~~b &&& d) = 0 := by
  ext j hj
  cases hb : b[j] <;> simp [hb]

/-- Settles O48: disjoint terms have the same union, exclusive or and sum; the majority is read off bit by bit. -/
theorem mixingFunctionsBitByBit : Obligations.MixingFunctionsBitByBit := by
  refine fun b c d => ⟨?_, ?_, fun j _ => ?_⟩
  · ext j hj
    cases hb : b[j] <;> simp [fCh, hb]
  · rw [BitVec.add_eq_or_of_and_eq_zero _ _ (choose_terms_disjoint b c d), fCh]
  · simp only [fMaj, BitVec.getLsbD_or, BitVec.getLsbD_and]
    cases b.getLsbD j <;> cases c.getLsbD j <;> cases d.getLsbD j <;> rfl

end Sys2Proof.Machine
end
